-- ==== Sys2Proof/Word.lean ====
section
/-! DEFINITION. The two widths of GBR-CORE: `byte` is 8 bits and `word` is 16 bits (spec 00_scope R6). -/

namespace Sys2Proof

/-- A `byte` of R6: the width of a general register, of FLAGS and of a memory cell. -/
abbrev Byte := BitVec 8

/-- A `word` of R6: the width of PC, of SP, of a pair view and of a bus address. -/
abbrev Word := BitVec 16

end Sys2Proof
end

