-- ==== Sys2Proof/Config.lean ====
section
/-! DEFINITION. The implementation parameters of spec 00_scope R5, as plain data.
The sizes the source fixes are named constants; the parameters marked OPEN are the fields of `Config`.
The default values of the OPEN parameters stand in Sys2Proof/Decode.lean (`defaultOpcodes`, `Config.default`). -/

namespace Sys2Proof

/-- `HEADER_LEN` (R5, 20_memory R43). -/
def headerLen : Nat := 80

/-- `BANK_LEN` (R5, 20_memory R43). -/
def bankLen : Nat := 16384

/-- The number of bus addresses (R5: the bus address is 16 bits wide). -/
def busSize : Nat := 65536

/-- `LOGO_LEN` (R5, 20_memory R62). -/
def logoLen : Nat := 48

/-- The 48-byte cartridge-logo reference constant of 20_memory R62.
Its values are not in the source (91 N12), so it has no body here; no rule and no definition of the model reads it. -/
opaque Config.logo : Vector Byte logoLen

/-- `BUS_KIND` (R5, 20_memory R41): which implementation of the bus contract the engine runs on. -/
inductive BusKind where
  | banked
  | flat
  deriving DecidableEq, Repr

/-- `LD_HLIND_MODE` (44_load_immediate8 R116): what the optional 14th form does. -/
inductive HLindMode where
  | absent
  | overwritePair
  | memoryWrite
  deriving DecidableEq, Repr

/-- The `OPC_*` parameters of 30_encoding R77, one opcode byte per tag, in the order of that rule's table. -/
structure OpcodeMap where
  nop : Byte
  ldBcD16 : Byte
  ldBcIndA : Byte
  incBc : Byte
  incB : Byte
  decB : Byte
  ldBD8 : Byte
  ldCD8 : Byte
  ldDD8 : Byte
  ldHD8 : Byte
  ldLD8 : Byte
  ldAD8 : Byte
  jp : Byte
  ldHLindD8 : Byte
  deriving DecidableEq, Repr

/-- The opcode bytes of the thirteen tags that are always present (R77). -/
def OpcodeMap.required (o : OpcodeMap) : List Byte :=
  [o.nop, o.ldBcD16, o.ldBcIndA, o.incBc, o.incB, o.decB, o.ldBD8, o.ldCD8, o.ldDD8, o.ldHD8,
    o.ldLD8, o.ldAD8, o.jp]

/-- The opcode bytes of R77's table, the optional form's last. -/
def OpcodeMap.all (o : OpcodeMap) : List Byte :=
  o.required ++ [o.ldHLindD8]

/-- The OPEN parameters of R5. -/
structure Config where
  /-- `BUS_KIND` -/
  busKind : BusKind
  /-- `HEADER_BASE`: the bus address of header byte 0 (20_memory R48) -/
  headerBase : Nat
  /-- `WINDOW_BASE`: the bus address of active-bank byte 0 (20_memory R48) -/
  windowBase : Nat
  /-- `FLAT_LEN`: the length of the flat buffer (20_memory R50) -/
  flatLen : Nat
  /-- the `OPC_*` bytes (30_encoding R77) -/
  opc : OpcodeMap
  /-- `LD_HLIND_MODE` (44_load_immediate8 R116) -/
  hlIndMode : HLindMode
  deriving DecidableEq, Repr

/-- The bytes that some tag of R77 names: thirteen, and the optional form's where it is present. -/
def Config.mappedBytes (c : Config) : List Byte :=
  match c.hlIndMode with
  | .absent => c.opc.required
  | .overwritePair => c.opc.all
  | .memoryWrite => c.opc.all

end Sys2Proof
end

