-- ==== Sys2Proof/Syntax.lean ====
section
/-! DEFINITION. The instructions of GBR-CORE: one constructor per row of spec/opcode_table.json, carrying the
operands the row's format holds (30_encoding R74, R76). -/

namespace Sys2Proof

/-- An instruction with its operands. The names are the source's tags (30_encoding R82). -/
inductive Instr where
  /-- `NOP` (40_noop R90) -/
  | noOp
  /-- `LD BC,d16` (41_load_immediate16 R95) -/
  | loadImmediate16BC (d16 : Word)
  /-- `LD (BC),A` (42_store_indirect R100) -/
  | storeAIndirectBC
  /-- `INC BC` (43_inc_dec R105) -/
  | increment16BC
  /-- `INC B` (43_inc_dec R106) -/
  | increment8B
  /-- `DEC B` (43_inc_dec R107) -/
  | decrement8B
  /-- `LD B,d8` (44_load_immediate8 R111) -/
  | loadImmediate8B (d8 : Byte)
  /-- `LD C,d8` (44_load_immediate8 R112) -/
  | loadImmediate8C (d8 : Byte)
  /-- `LD D,d8` (44_load_immediate8 R113) -/
  | loadImmediate8D (d8 : Byte)
  /-- `LD H,d8` (44_load_immediate8 R114) -/
  | loadImmediate8H (d8 : Byte)
  /-- `LD L,d8` (44_load_immediate8 R115) -/
  | loadImmediate8L (d8 : Byte)
  /-- `LD A,d8` (44_load_immediate8 R110) -/
  | loadImmediate8A (d8 : Byte)
  /-- `JP a16` (45_jump R120) -/
  | absoluteJump (a16 : Word)
  /-- `LD (HL),d8`, the optional 14th form (44_load_immediate8 R116) -/
  | loadImmediate8HLind (d8 : Byte)
  /-- `DB n`: a byte of no tag, executed as NoOp with `miss` = 1 (40_noop R91) -/
  | noOpMiss (n : Byte)
  deriving DecidableEq, Repr

end Sys2Proof
end

