-- ==== Sys2Proof/WellFormed.lean ====
section
/-! DEFINITION. Which parameters and which instructions are well formed. -/

namespace Sys2Proof

/-- The well-formedness of the opcode bytes (30_encoding R77, 92 D1, D7): pairwise distinct, the optional form's too;
none is 0xFF; AbsoluteJump's is 0xC3. -/
abbrev OpcodeMap.WellFormed (o : OpcodeMap) : Prop :=
  o.all.Nodup ∧ (0xFF : Byte) ∉ o.all ∧ o.jp = 0xC3

/-- The well-formedness of the bus map (20_memory R48, R50): both ranges lie inside the address space and are
disjoint, and the flat buffer is no longer than the address space. -/
abbrev Config.MapWellFormed (c : Config) : Prop :=
  c.headerBase + headerLen ≤ busSize ∧ c.windowBase + bankLen ≤ busSize ∧
  (c.headerBase + headerLen ≤ c.windowBase ∨ c.windowBase + bankLen ≤ c.headerBase) ∧
  c.flatLen ≤ busSize

/-- The well-formedness conditions on all parameters together. -/
abbrev Config.WellFormed (c : Config) : Prop :=
  c.opc.WellFormed ∧ c.MapWellFormed

/-- An instruction that the map of `c` can encode: a miss byte is one no tag names (40_noop R91), and the optional
form exists only when its mode is not `absent` (44_load_immediate8 R116). -/
def Instr.wellFormed (c : Config) : Instr → Bool
  | .noOp => true
  | .loadImmediate16BC _ => true
  | .storeAIndirectBC => true
  | .increment16BC => true
  | .increment8B => true
  | .decrement8B => true
  | .loadImmediate8B _ => true
  | .loadImmediate8C _ => true
  | .loadImmediate8D _ => true
  | .loadImmediate8H _ => true
  | .loadImmediate8L _ => true
  | .loadImmediate8A _ => true
  | .absoluteJump _ => true
  | .loadImmediate8HLind _ => decide (c.hlIndMode ≠ .absent)
  | .noOpMiss n => decide (n ∉ c.mappedBytes)

end Sys2Proof
end

