-- ==== Sys2Proof/Decode.lean ====
section
/-! DEFINITION. The decoder (30_encoding R73 to R77, R80), total on any bytes, and after it the encoder.
The default opcode bytes and the default parameters stand here too. -/

namespace Sys2Proof

/-- `{hi, lo}` = `(hi << 8) | lo` (00_scope R6). -/
def mkWord (hi lo : Byte) : Word := hi ++ lo

/-- `v[15:8]` (00_scope R6). -/
def hiByte (w : Word) : Byte := w.extractLsb' 8 8

/-- `v[7:0]` (00_scope R6). -/
def loByte (w : Word) : Byte := w.extractLsb' 0 8

/-- The default opcode bytes of R77. PRESUMED (log 2): every byte but 0xC3 is the spec's general knowledge of the
imitated family, not the source's. -/
def defaultOpcodes : OpcodeMap where
  nop := 0x00
  ldBcD16 := 0x01
  ldBcIndA := 0x02
  incBc := 0x03
  incB := 0x04
  decB := 0x05
  ldBD8 := 0x06
  ldCD8 := 0x0E
  ldDD8 := 0x16
  ldHD8 := 0x26
  ldLD8 := 0x2E
  ldAD8 := 0x3E
  jp := 0xC3
  ldHLindD8 := 0x36

/-- The defaults of R5. UNVERIFIED (log 3, 7, 11): the spec's own decisions D2, D7 and D16. -/
def Config.default : Config where
  busKind := .banked
  headerBase := 0x0000
  windowBase := 0x0050
  flatLen := 65536
  opc := defaultOpcodes
  hlIndMode := .absent

/-- The closed set of opcode tags (30_encoding R73, R78): "each variant carries no payload". -/
inductive Tag where
  | noOp
  | loadImmediate16BC
  | storeAIndirectBC
  | increment16BC
  | increment8B
  | decrement8B
  | loadImmediate8B
  | loadImmediate8C
  | loadImmediate8D
  | loadImmediate8H
  | loadImmediate8L
  | loadImmediate8A
  | absoluteJump
  | loadImmediate8HLind
  deriving DecidableEq, Repr

/-- `OPC_<tag>` (R77): the opcode byte of a tag. -/
def OpcodeMap.byteOf (o : OpcodeMap) : Tag → Byte
  | .noOp => o.nop
  | .loadImmediate16BC => o.ldBcD16
  | .storeAIndirectBC => o.ldBcIndA
  | .increment16BC => o.incBc
  | .increment8B => o.incB
  | .decrement8B => o.decB
  | .loadImmediate8B => o.ldBD8
  | .loadImmediate8C => o.ldCD8
  | .loadImmediate8D => o.ldDD8
  | .loadImmediate8H => o.ldHD8
  | .loadImmediate8L => o.ldLD8
  | .loadImmediate8A => o.ldAD8
  | .absoluteJump => o.jp
  | .loadImmediate8HLind => o.ldHLindD8

/-- Whether a tag is in the closed set of R78: the thirteen, and the optional one where its mode is not `absent`. -/
def tagPresent (c : Config) (t : Tag) : Bool := decide (t ≠ .loadImmediate8HLind ∨ c.hlIndMode ≠ .absent)

/-- R77's table for the thirteen tags that are always present: opcode byte and tag. -/
def requiredRows (o : OpcodeMap) : List (Byte × Tag) :=
  [(o.nop, .noOp), (o.ldBcD16, .loadImmediate16BC), (o.ldBcIndA, .storeAIndirectBC),
    (o.incBc, .increment16BC), (o.incB, .increment8B), (o.decB, .decrement8B),
    (o.ldBD8, .loadImmediate8B), (o.ldCD8, .loadImmediate8C), (o.ldDD8, .loadImmediate8D),
    (o.ldHD8, .loadImmediate8H), (o.ldLD8, .loadImmediate8L), (o.ldAD8, .loadImmediate8A),
    (o.jp, .absoluteJump)]

/-- The rows a decoder tries (30_encoding R83): the optional row is dropped when the mode is `absent`. -/
def activeRows (c : Config) : List (Byte × Tag) :=
  match c.hlIndMode with
  | .absent => requiredRows c.opc
  | .overwritePair => requiredRows c.opc ++ [(c.opc.ldHLindD8, .loadImmediate8HLind)]
  | .memoryWrite => requiredRows c.opc ++ [(c.opc.ldHLindD8, .loadImmediate8HLind)]

/-- The tag whose opcode byte equals `b`, if there is one (R73). -/
def lookupTag (c : Config) (b : Byte) : Option Tag := (activeRows c).lookup b

/-- `decode(b)` of R73: total; a byte of no tag maps to the no-operation tag. -/
def decodeTag (c : Config) (b : Byte) : Tag := (lookupTag c b).getD .noOp

/-- Whether `b` is a decode miss (R80). -/
def isMiss (c : Config) (b : Byte) : Bool := (lookupTag c b).isNone

/-- The three formats of R74, each with the instruction its operand bytes complete. -/
inductive Form where
  | op (i : Instr)
  | opD8 (k : Byte → Instr)
  | opD16 (k : Word → Instr)

/-- The number of operand bytes a format has after the opcode byte (R74). -/
def Form.operandBytes : Form → Nat
  | .op _ => 0
  | .opD8 _ => 1
  | .opD16 _ => 2

/-- The format of each tag (R74, last column). -/
def Tag.form : Tag → Form
  | .noOp => .op .noOp
  | .loadImmediate16BC => .opD16 .loadImmediate16BC
  | .storeAIndirectBC => .op .storeAIndirectBC
  | .increment16BC => .op .increment16BC
  | .increment8B => .op .increment8B
  | .decrement8B => .op .decrement8B
  | .loadImmediate8B => .opD8 .loadImmediate8B
  | .loadImmediate8C => .opD8 .loadImmediate8C
  | .loadImmediate8D => .opD8 .loadImmediate8D
  | .loadImmediate8H => .opD8 .loadImmediate8H
  | .loadImmediate8L => .opD8 .loadImmediate8L
  | .loadImmediate8A => .opD8 .loadImmediate8A
  | .absoluteJump => .opD16 .absoluteJump
  | .loadImmediate8HLind => .opD8 .loadImmediate8HLind

/-- The instruction length of a tag in bytes, opcode byte included (R74). -/
def Tag.length (t : Tag) : Nat := 1 + t.form.operandBytes

/-- What the opcode byte alone decides (R81): the format; a miss is one byte long (R80). -/
def formOf (c : Config) (b : Byte) : Form :=
  match lookupTag c b with
  | some t => t.form
  | none => .op (.noOpMiss b)

/-- Why a list of bytes is no whole instruction. No byte VALUE is rejected (R80); only bytes can be missing. -/
inductive DecodeError where
  /-- there is no opcode byte -/
  | noOpcodeByte
  /-- the bytes end before the operands of this opcode byte are complete -/
  | missingOperand (opcode : Byte)
  deriving DecidableEq, Repr

/-- Completes an instruction from the bytes after its opcode byte `b`, low operand byte first (R72, R76). -/
def completeForm (b : Byte) : Form → List Byte → Except DecodeError (Instr × List Byte)
  | .op i, rest => .ok (i, rest)
  | .opD8 k, v :: rest => .ok (k v, rest)
  | .opD8 _, [] => .error (.missingOperand b)
  | .opD16 k, lo :: hi :: rest => .ok (k (mkWord hi lo), rest)
  | .opD16 _, [] => .error (.missingOperand b)
  | .opD16 _, [_] => .error (.missingOperand b)

/-- Decodes the instruction at the head of a list of bytes, the byte of lowest address first, and gives the rest. -/
def decode (c : Config) : List Byte → Except DecodeError (Instr × List Byte)
  | [] => .error .noOpcodeByte
  | b :: rest => completeForm b (formOf c b) rest

/-- The longest instruction, in bytes (R74). -/
def maxLength : Nat := 3

/-- The bytes of a table word: byte 0 is bits 7..0, byte 1 bits 15..8, byte 2 bits 23..16; bits above `nbits` are 0. -/
def tableBytes (nbits w : Nat) : List Byte :=
  [BitVec.ofNat 8 (w % 2 ^ nbits), BitVec.ofNat 8 (w % 2 ^ nbits / 256),
    BitVec.ofNat 8 (w % 2 ^ nbits / 65536)]

/-- What the decoder reads, under the default parameters, from a word numbered as spec/opcode_table.json numbers it. -/
def decodeTableWord (nbits w : Nat) : Option Instr :=
  match decode Config.default (tableBytes nbits w) with
  | .ok (i, _) => some i
  | .error _ => none

/-- The tag of an instruction; a miss has the no-operation tag (40_noop R91). -/
def Instr.tag : Instr → Tag
  | .noOp => .noOp
  | .loadImmediate16BC _ => .loadImmediate16BC
  | .storeAIndirectBC => .storeAIndirectBC
  | .increment16BC => .increment16BC
  | .increment8B => .increment8B
  | .decrement8B => .decrement8B
  | .loadImmediate8B _ => .loadImmediate8B
  | .loadImmediate8C _ => .loadImmediate8C
  | .loadImmediate8D _ => .loadImmediate8D
  | .loadImmediate8H _ => .loadImmediate8H
  | .loadImmediate8L _ => .loadImmediate8L
  | .loadImmediate8A _ => .loadImmediate8A
  | .absoluteJump _ => .absoluteJump
  | .loadImmediate8HLind _ => .loadImmediate8HLind
  | .noOpMiss _ => .noOp

/-- The two bytes of a 16-bit operand in memory order, low half first (R74, R76). -/
def wordBytes (w : Word) : List Byte := [loByte w, hiByte w]

/-- The bytes of an instruction, lowest address first (R74, R77). -/
def encode (c : Config) : Instr → List Byte
  | .noOp => [c.opc.nop]
  | .loadImmediate16BC d16 => c.opc.ldBcD16 :: wordBytes d16
  | .storeAIndirectBC => [c.opc.ldBcIndA]
  | .increment16BC => [c.opc.incBc]
  | .increment8B => [c.opc.incB]
  | .decrement8B => [c.opc.decB]
  | .loadImmediate8B d8 => [c.opc.ldBD8, d8]
  | .loadImmediate8C d8 => [c.opc.ldCD8, d8]
  | .loadImmediate8D d8 => [c.opc.ldDD8, d8]
  | .loadImmediate8H d8 => [c.opc.ldHD8, d8]
  | .loadImmediate8L d8 => [c.opc.ldLD8, d8]
  | .loadImmediate8A d8 => [c.opc.ldAD8, d8]
  | .absoluteJump a16 => c.opc.jp :: wordBytes a16
  | .loadImmediate8HLind d8 => [c.opc.ldHLindD8, d8]
  | .noOpMiss n => [n]

end Sys2Proof
end

