-- ==== Sys2Proof/Machine/State.lean ====
section
/-! DEFINITION. The architectural state of 10_state R37, its reset values (R35), and the reasons a step can stop. -/

namespace Sys2Proof.Machine

/-- The three bank identifiers (10_state R30). No rule computes with a number for them. -/
inductive BankId where
  | bank1
  | bank2
  | bank3
  deriving DecidableEq, Repr

/-- The selectors of an 8-bit register operation (10_state R19). -/
inductive Reg8 where
  | a | b | c | d | e | h | l | flags
  deriving DecidableEq, Repr

/-- The selectors of a 16-bit register operation (10_state R19). The two sets are disjoint types. -/
inductive Reg16 where
  | af | bc | de | hl | pc | sp
  deriving DecidableEq, Repr

/-- One array of bytes: the bytes that differ from what an unlisted index reads as, indexes strictly rising. -/
abbrev Cells := List Host.Cell

/-- What an index that is not listed reads as: memory is zero-initialized (10_state R35).
For the flat buffer this is the model's choice (log 11). -/
def unlistedByte : Byte := 0x00

/-- The storage arrays of R37. `buf` is the flat buffer of 20_memory R50; the other four are BankedMemory (R43). -/
structure Memory where
  header : Cells
  bank1 : Cells
  bank2 : Cells
  bank3 : Cells
  buf : Cells
  deriving DecidableEq, Repr

/-- The canonical form from index `lo` on: indexes strictly rising, below `len`, no entry equal to the unlisted byte. -/
def cellsFrom (lo len : Nat) : Cells → Bool
  | [] => true
  | (k, v) :: rest =>
    decide (lo ≤ k) && decide (k < len) && decide (v ≠ unlistedByte) && cellsFrom (k + 1) len rest

/-- The canonical form of an array of `len` bytes. -/
def cellsWf (len : Nat) (cs : Cells) : Bool := cellsFrom 0 len cs

/-- Every array is in canonical form and within its length (R37, R43, R50). -/
def Memory.wf (m : Memory) (flatLen : Nat) : Bool :=
  cellsWf headerLen m.header && cellsWf bankLen m.bank1 && cellsWf bankLen m.bank2 &&
    cellsWf bankLen m.bank3 && cellsWf flatLen m.buf

/-- All bytes at their reset value (R35). -/
def Memory.zero : Memory where
  header := []
  bank1 := []
  bank2 := []
  bank3 := []
  buf := []

/-- A storage location, the `l` of `Loc(l)` in 20_memory R42. -/
inductive Loc where
  | header (i : Nat)
  | bank (id : BankId) (i : Nat)
  | buf (i : Nat)
  deriving DecidableEq, Repr

/-- The state record of 10_state R37, and beside it the parameters of the machine (log 1). -/
structure State where
  a : Byte
  b : Byte
  c : Byte
  d : Byte
  e : Byte
  h : Byte
  l : Byte
  /-- FLAGS: bit 7 Z, bit 6 N, bit 5 H, bit 4 C, bits 3..0 always 0 (R12, R13) -/
  flags : Byte
  pc : Word
  sp : Word
  /-- the active-bank selector (R30) -/
  sel : BankId
  mem : Memory
  /-- the implementation parameters of 00_scope R5; no transition changes them -/
  cfg : Config
  deriving DecidableEq, Repr

/-- The access kinds of the fault report (60_exceptions R130). -/
inductive AccessKind where
  | fetchOpcode
  | fetchOperand
  | store
  deriving DecidableEq, Repr

/-- The one fault of the hardware. -/
inductive Fault where
  /-- `AddressOutOfRange(addr)` (60_exceptions R130): raised by an opcode fetch, an operand fetch or a store whose bus
  address `resolve` maps to no location. SAFE: the spec's own outcome; where the reference code would do something
  unknown, the model stops (R49, log 4). -/
  | addressOutOfRange (addr : Word) (kind : AccessKind)
  deriving DecidableEq, Repr

/-- The refusals. No instruction of the model is refused. -/
inductive Refusal where
  /-- An instruction without a meaning, by its mnemonic. Raised by no arm of `exec` now. SAFE: the machine stops. -/
  | notModelled (mnemonic : String)
  deriving DecidableEq, Repr

/-- `construct` (70 R150, R156): the state of a new machine with parameters `c`, every field at its reset value.
UNVERIFIED (log 5): Bank1 is the spec's own decision D4. -/
def State.construct (c : Config) : State where
  a := 0x00
  b := 0x00
  c := 0x00
  d := 0x00
  e := 0x00
  h := 0x00
  l := 0x00
  flags := 0x00
  pc := 0x0000
  sp := 0x0000
  sel := .bank1
  mem := Memory.zero
  cfg := c

/-- The machine right after reset (10_state R35, 70 R150), with the default parameters of R5. -/
def State.reset : State := State.construct Config.default

end Sys2Proof.Machine
end

