-- ==== Sys2Proof/Machine/Flags.lean ====
section
/-! DEFINITION. FLAGS: its layout and its one write path (10_state R12 to R15).
No instruction computes a flag (R15), so the write mask is the whole of the flag arithmetic. -/

namespace Sys2Proof.Machine

/-- What a write of `v` to FLAGS stores: `v & 0xF0` (R13). -/
def maskFlags (v : Byte) : Byte := v &&& 0xF0

/-- Z, bit 7 of FLAGS (R12). -/
def State.flagZ (s : State) : Bool := s.flags.getLsbD 7

/-- N, bit 6 of FLAGS (R12). -/
def State.flagN (s : State) : Bool := s.flags.getLsbD 6

/-- H, bit 5 of FLAGS (R12): the half-carry flag, not the register H. -/
def State.flagH (s : State) : Bool := s.flags.getLsbD 5

/-- C, bit 4 of FLAGS (R12): the carry flag, not the register C. -/
def State.flagC (s : State) : Bool := s.flags.getLsbD 4

/-- Bits 3..0 of FLAGS, hard-wired zero (R12, R13). -/
def State.flagsLow (s : State) : Byte := s.flags &&& 0x0F

end Sys2Proof.Machine
end

