-- ==== Sys2Proof/Machine/Ops.lean ====
section
/-! DEFINITION. The named operations over registers and memory: the accessors of 10_state R20 to R27, the storage and
bus of 20_memory R41 to R50, and raising the one fault (60_exceptions R130, R135). -/

namespace Sys2Proof.Machine

/-- `get8(s)` (R20). -/
def State.get8 (s : State) : Reg8 → Byte
  | .a => s.a
  | .b => s.b
  | .c => s.c
  | .d => s.d
  | .e => s.e
  | .h => s.h
  | .l => s.l
  | .flags => s.flags

/-- `set8(s, v)` (R21); a write of FLAGS goes through the mask. -/
def State.set8 (s : State) (r : Reg8) (v : Byte) : State :=
  match r with
  | .a => { s with a := v }
  | .b => { s with b := v }
  | .c => { s with c := v }
  | .d => { s with d := v }
  | .e => { s with e := v }
  | .h => { s with h := v }
  | .l => { s with l := v }
  | .flags => { s with flags := maskFlags v }

/-- `get16(p)` (R16, R22): a pair view is `{high, low}`. -/
def State.get16 (s : State) : Reg16 → Word
  | .af => mkWord s.a s.flags
  | .bc => mkWord s.b s.c
  | .de => mkWord s.d s.e
  | .hl => mkWord s.h s.l
  | .pc => s.pc
  | .sp => s.sp

/-- `set16(p, v)` (R23): a pair write is the write of its two halves, FLAGS through the mask. -/
def State.set16 (s : State) (p : Reg16) (v : Word) : State :=
  match p with
  | .af => (s.set8 .a (hiByte v)).set8 .flags (loByte v)
  | .bc => (s.set8 .b (hiByte v)).set8 .c (loByte v)
  | .de => (s.set8 .d (hiByte v)).set8 .e (loByte v)
  | .hl => (s.set8 .h (hiByte v)).set8 .l (loByte v)
  | .pc => { s with pc := v }
  | .sp => { s with sp := v }

/-- `increment8(s)` (R25): modulo 256, no flag. -/
def State.inc8 (s : State) (r : Reg8) : State := s.set8 r (s.get8 r + 1)

/-- `decrement8(s)` (R25): modulo 256, no flag. -/
def State.dec8 (s : State) (r : Reg8) : State := s.set8 r (s.get8 r - 1)

/-- `increment16(p)` (R26): modulo 65536, no flag. -/
def State.inc16 (s : State) (p : Reg16) : State := s.set16 p (s.get16 p + 1)

/-- `decrement16(p)` (R26): modulo 65536, no flag. -/
def State.dec16 (s : State) (p : Reg16) : State := s.set16 p (s.get16 p - 1)

/-- The byte of an array at index `i`. -/
def readCell : Cells → Nat → Byte
  | [], _ => unlistedByte
  | (k, v) :: rest, i => if k = i then v else readCell rest i

/-- The array with `v` at index `i`, kept in canonical form: the unlisted byte is stored by listing nothing. -/
def writeCell : Cells → Nat → Byte → Cells
  | [], i, v => if v = unlistedByte then [] else [(i, v)]
  | (k, u) :: rest, i, v =>
    if k < i then (k, u) :: writeCell rest i v
    else if k = i then (if v = unlistedByte then rest else (i, v) :: rest)
    else (if v = unlistedByte then (k, u) :: rest else (i, v) :: (k, u) :: rest)

/-- `bank(id)` (20_memory R45). -/
def Memory.bank (m : Memory) : BankId → Cells
  | .bank1 => m.bank1
  | .bank2 => m.bank2
  | .bank3 => m.bank3

/-- Replaces the array of one bank. -/
def Memory.setBank (m : Memory) (id : BankId) (cs : Cells) : Memory :=
  match id with
  | .bank1 => { m with bank1 := cs }
  | .bank2 => { m with bank2 := cs }
  | .bank3 => { m with bank3 := cs }

/-- `contents[l]` (20_memory R42). -/
def Memory.get (m : Memory) : Loc → Byte
  | .header i => readCell m.header i
  | .bank id i => readCell (m.bank id) i
  | .buf i => readCell m.buf i

/-- `contents[l] <- v` (20_memory R42): the four arrays and the buffer are disjoint storage (R46). -/
def Memory.set (m : Memory) (l : Loc) (v : Byte) : Memory :=
  match l with
  | .header i => { m with header := writeCell m.header i v }
  | .bank id i => m.setBank id (writeCell (m.bank id) i v)
  | .buf i => { m with buf := writeCell m.buf i v }

/-- The persisted layout of the storage (20_memory R63): the location at offset `k` of the 49232 bytes that are the
header and then the three banks. It is not the bus map. -/
def persistedLoc (k : Nat) : Option Loc :=
  if k < headerLen then some (.header k)
  else if k < headerLen + bankLen then some (.bank .bank1 (k - headerLen))
  else if k < headerLen + 2 * bankLen then some (.bank .bank2 (k - headerLen - bankLen))
  else if k < headerLen + 3 * bankLen then some (.bank .bank3 (k - headerLen - 2 * bankLen))
  else none

/-- The bus address map: R48 for the banked bus, R50 for the flat one. `none` is `OutOfRange`. -/
def resolve (c : Config) (sel : BankId) (addr : Word) : Option Loc :=
  match c.busKind with
  | .banked =>
    if c.headerBase ≤ addr.toNat ∧ addr.toNat < c.headerBase + headerLen then
      some (.header (addr.toNat - c.headerBase))
    else if c.windowBase ≤ addr.toNat ∧ addr.toNat < c.windowBase + bankLen then
      some (.bank sel (addr.toNat - c.windowBase))
    else none
  | .flat => if addr.toNat < c.flatLen then some (.buf addr.toNat) else none

/-- The location a bus address reaches in a state: `resolve` reads `sel` at the moment of the access (R48). -/
def State.locate (s : State) (addr : Word) : Option Loc := resolve s.cfg s.sel addr

/-- Replaces the byte at a location. -/
def State.setLoc (s : State) (l : Loc) (v : Byte) : State := { s with mem := s.mem.set l v }

/-- `read8(address)` (R41, R42); `none` is the failure `AddressOutOfRange`. A read changes nothing. -/
def State.read8 (s : State) (addr : Word) : Option Byte := (s.locate addr).map s.mem.get

/-- `write8(address, value)` (R41, R42); `none` is the failure `AddressOutOfRange`. -/
def State.write8 (s : State) (addr : Word) (v : Byte) : Option State :=
  (s.locate addr).map fun l => s.setLoc l v

/-- `select_bank(id)` (R44): no byte moves. -/
def State.selectBank (s : State) (id : BankId) : State := { s with sel := id }

/-- `active_view()` (R45): the storage of the selected bank. -/
def State.activeView (s : State) : Cells := s.mem.bank s.sel

/-- The report of the one fault: the offending address and the access kind (60_exceptions R130).
Taking it is reporting it to the host: nothing is saved, no mode or mask changes and no handler is entered (R135), so
it carries no state, and the state of a faulted step is the state before it (R133). -/
def outOfRange (addr : Word) (kind : AccessKind) : Fault := .addressOutOfRange addr kind

/-- `MemWrite(addr, 1, v)` inside a step (R42): the state with the byte stored, or the fault. -/
def State.storeByte (s : State) (addr : Word) (v : Byte) : Host.Outcome State Fault Refusal :=
  match s.write8 addr v with
  | some t => .next t
  | none => .fault (outOfRange addr .store)

end Sys2Proof.Machine
end

