-- ==== Sys2Proof/Machine/Operands.lean ====
section
/-! DEFINITION. The operand forms: immediate bytes and words fetched at PC (30_encoding R71, R72, R76) and the
register-indirect address of a pair (42_store_indirect R101). -/

namespace Sys2Proof.Machine

/-- `fetch_byte()` (R71): the read comes first, then PC advances by 1, modulo 65536. -/
def fetchByte (kind : AccessKind) (s : State) : Except Fault (Byte × State) :=
  match s.read8 s.pc with
  | some v => .ok (v, s.inc16 .pc)
  | none => .error (outOfRange s.pc kind)

/-- `fetch_word()` (R72): low byte at PC, then high byte at PC + 1 modulo 65536 (log 6, log 12); PC advances by 2. -/
def fetchWord (s : State) : Except Fault (Word × State) :=
  match s.read8 s.pc with
  | none => .error (outOfRange s.pc .fetchOperand)
  | some lo =>
    match s.read8 (s.pc + 1) with
    | none => .error (outOfRange (s.pc + 1) .fetchOperand)
    | some hi => .ok (mkWord hi lo, s.set16 .pc (s.pc + 2))

/-- Fetches the operand bytes of a format at PC and completes its instruction (R76, R79). -/
def fetchOperands (f : Form) (s : State) : Except Fault (Instr × State) :=
  match f with
  | .op i => .ok (i, s)
  | .opD8 k =>
    match fetchByte .fetchOperand s with
    | .ok (v, t) => .ok (k v, t)
    | .error e => .error e
  | .opD16 k =>
    match fetchWord s with
    | .ok (w, t) => .ok (k w, t)
    | .error e => .error e

/-- Fetches and decodes the whole instruction at PC (R70): PC is past its bytes in the state that comes back. -/
def fetchInstr (s : State) : Except Fault (Instr × State) :=
  match fetchByte .fetchOpcode s with
  | .ok (b, t) => fetchOperands (formOf s.cfg b) t
  | .error e => .error e

/-- The one-bit `miss` output of a step from `s` (60_exceptions R143, 40_noop R91): whether the byte at PC has no tag.
It is an output, not state; it is meaningful when the step answers a next state. -/
def missOutput (s : State) : Bool :=
  match s.read8 s.pc with
  | some b => isMiss s.cfg b
  | none => false

/-- The effective address of a register-indirect access through a pair: the whole pair, unmodified (R76, R101). -/
def State.pairAddress (s : State) (p : Reg16) : Word := s.get16 p

/-- Stores a list of bytes at consecutive bus addresses from `addr` on; a byte with no location is dropped.
Used to place an instruction where the next step fetches it, never by a step. -/
def State.placeBytes (s : State) (addr : Word) : List Byte → State
  | [] => s
  | v :: rest =>
    match s.write8 addr v with
    | some t => State.placeBytes t (addr + 1) rest
    | none => State.placeBytes s (addr + 1) rest

end Sys2Proof.Machine
end

