-- ==== Sys2Proof/Machine/IncDec.lean ====
section
/-! DEFINITION. Family 4, increment and decrement (43_inc_dec). None writes a flag (10_state R15). -/

namespace Sys2Proof.Machine

/-- Increment16(BC) (R105): `inc16(BC)`. -/
def execIncrement16BC (s : State) : Host.Outcome State Fault Refusal := .next (s.inc16 .bc)

/-- Increment8(B) (R106): `inc8(B)`. -/
def execIncrement8B (s : State) : Host.Outcome State Fault Refusal := .next (s.inc8 .b)

/-- Decrement8(B) (R107): `dec8(B)`. -/
def execDecrement8B (s : State) : Host.Outcome State Fault Refusal := .next (s.dec8 .b)

end Sys2Proof.Machine
end

