-- ==== Sys2Proof/Machine/Jump.lean ====
section
/-! DEFINITION. Family 6, control transfer (45_jump). -/

namespace Sys2Proof.Machine

/-- AbsoluteJump (R120): `pc <- target`. The target is not checked; an out-of-range one faults at the next fetch. -/
def execAbsoluteJump (target : Word) (s : State) : Host.Outcome State Fault Refusal :=
  .next (s.set16 .pc target)

end Sys2Proof.Machine
end

