-- ==== Sys2Proof/Machine/LoadImmediate16.lean ====
section
/-! DEFINITION. Family 2, 16-bit immediate load (41_load_immediate16). -/

namespace Sys2Proof.Machine

/-- LoadImmediate16(BC) (R95): `r16[BC] <- w`. -/
def execLoadImmediate16BC (w : Word) (s : State) : Host.Outcome State Fault Refusal :=
  .next (s.set16 .bc w)

end Sys2Proof.Machine
end

