-- ==== Sys2Proof/Machine/LoadImmediate8.lean ====
section
/-! DEFINITION. Family 5, 8-bit immediate loads (44_load_immediate8 R118: `r8[X] <- v`), and the optional (HL)-form. -/

namespace Sys2Proof.Machine

/-- LoadImmediate8(B) (R111). -/
def execLoadImmediate8B (v : Byte) (s : State) : Host.Outcome State Fault Refusal := .next (s.set8 .b v)

/-- LoadImmediate8(C) (R112). -/
def execLoadImmediate8C (v : Byte) (s : State) : Host.Outcome State Fault Refusal := .next (s.set8 .c v)

/-- LoadImmediate8(D) (R113). -/
def execLoadImmediate8D (v : Byte) (s : State) : Host.Outcome State Fault Refusal := .next (s.set8 .d v)

/-- LoadImmediate8(H) (R114). -/
def execLoadImmediate8H (v : Byte) (s : State) : Host.Outcome State Fault Refusal := .next (s.set8 .h v)

/-- LoadImmediate8(L) (R115). -/
def execLoadImmediate8L (v : Byte) (s : State) : Host.Outcome State Fault Refusal := .next (s.set8 .l v)

/-- LoadImmediate8(A) (R110). -/
def execLoadImmediate8A (v : Byte) (s : State) : Host.Outcome State Fault Refusal := .next (s.set8 .a v)

/-- LoadImmediate8(HLind) (R116), by `LD_HLIND_MODE`. Under `absent` no byte decodes to it; its byte is a decode miss,
so the effect is a miss's, no state change (log 7). Under `overwritePair` HL receives `zext_16(v)`: UNVERIFIED (log 8),
the spec's reading D7. -/
def execLoadImmediate8HLind (v : Byte) (s : State) : Host.Outcome State Fault Refusal :=
  match s.cfg.hlIndMode with
  | .absent => .next s
  | .overwritePair => .next (s.set16 .hl (mkWord 0x00 v))
  | .memoryWrite => s.storeByte (s.pairAddress .hl) v

end Sys2Proof.Machine
end

