-- ==== Sys2Proof/Machine/NoOp.lean ====
section
/-! DEFINITION. Family 1, no-operation (40_noop). A meaning is the effect of `execute` after the operand fetch: PC is
already past the instruction's bytes (10_state R17, log 16). -/

namespace Sys2Proof.Machine

/-- NoOp (R90): "no state change". -/
def execNoOp (s : State) : Host.Outcome State Fault Refusal := .next s

/-- NoOp.miss (R91): the same effect as NoOp, whatever the byte. -/
def execNoOpMiss (_n : Byte) (s : State) : Host.Outcome State Fault Refusal := .next s

end Sys2Proof.Machine
end

