-- ==== Sys2Proof/Machine/StoreIndirect.lean ====
section
/-! DEFINITION. Family 3, register-indirect store (42_store_indirect). -/

namespace Sys2Proof.Machine

/-- StoreAIndirect(BC) (R100): `MemWrite(r16[BC], 1, r8[A])`. -/
def execStoreAIndirectBC (s : State) : Host.Outcome State Fault Refusal :=
  s.storeByte (s.pairAddress .bc) (s.get8 .a)

end Sys2Proof.Machine
end

