-- ==== Sys2Proof/Machine/Dispatch.lean ====
section
/-! DEFINITION. `execute(tag)` of 30_encoding R78 after the operand fetch: one arm per instruction. -/

namespace Sys2Proof.Machine

def exec (i : Instr) (s : State) : Host.Outcome State Fault Refusal :=
  match i with
  | .noOp => Sys2Proof.Machine.execNoOp s
  | .loadImmediate16BC d16 => Sys2Proof.Machine.execLoadImmediate16BC d16 s
  | .storeAIndirectBC => Sys2Proof.Machine.execStoreAIndirectBC s
  | .increment16BC => Sys2Proof.Machine.execIncrement16BC s
  | .increment8B => Sys2Proof.Machine.execIncrement8B s
  | .decrement8B => Sys2Proof.Machine.execDecrement8B s
  | .loadImmediate8B d8 => Sys2Proof.Machine.execLoadImmediate8B d8 s
  | .loadImmediate8C d8 => Sys2Proof.Machine.execLoadImmediate8C d8 s
  | .loadImmediate8D d8 => Sys2Proof.Machine.execLoadImmediate8D d8 s
  | .loadImmediate8H d8 => Sys2Proof.Machine.execLoadImmediate8H d8 s
  | .loadImmediate8L d8 => Sys2Proof.Machine.execLoadImmediate8L d8 s
  | .loadImmediate8A d8 => Sys2Proof.Machine.execLoadImmediate8A d8 s
  | .absoluteJump a16 => Sys2Proof.Machine.execAbsoluteJump a16 s
  | .loadImmediate8HLind d8 => Sys2Proof.Machine.execLoadImmediate8HLind d8 s
  | .noOpMiss n => Sys2Proof.Machine.execNoOpMiss n s

end Sys2Proof.Machine
end

