-- ==== Sys2Proof/Machine/Step.lean ====
section
/-! DEFINITION. `step()` (30_encoding R70) with its three outcomes, and the placing of a table word where it fetches. -/

namespace Sys2Proof.Machine

/-- One step: fetch at PC, decode, execute. A fault carries no state, so a faulted step changes nothing
(60_exceptions R133). -/
def step (s : State) : Host.Outcome State Fault Refusal :=
  match fetchInstr s with
  | .ok (i, t) => exec i t
  | .error e => .fault e

/-- `s` with the instruction of a table word stored at PC, up to the longest instruction (log 13). -/
def State.withFetchWord (s : State) (nbits w : Nat) : State := s.placeBytes s.pc (tableBytes nbits w)

end Sys2Proof.Machine
end

