-- ==== Sys2Proof/Machine/HostOps.lean ====
section
/-! DEFINITION. The host interface: the operations of 70_reset_and_hazards R156, each a transition between steps. -/

namespace Sys2Proof.Machine

/-- The rows of R156's table. -/
inductive HostOp where
  /-- a new instance of the same hardware (R150) -/
  | construct
  | get8 (r : Reg8)
  | get16 (p : Reg16)
  | set8 (r : Reg8) (v : Byte)
  | set16 (p : Reg16) (v : Word)
  | increment8 (r : Reg8)
  | decrement8 (r : Reg8)
  | increment16 (p : Reg16)
  | decrement16 (p : Reg16)
  | selectBank (id : BankId)
  | activeView
  | bankRead (i : Nat)
  | bankWrite (i : Nat) (v : Byte)
  | headerRead (j : Nat)
  | headerWrite (j : Nat) (v : Byte)
  | read8 (addr : Word)
  | write8 (addr : Word) (v : Byte)
  | decode (b : Byte)
  | fetchByte
  | fetchWord
  | execute (t : Tag)
  | step
  deriving DecidableEq, Repr

/-- Why a host call fails. A failing call leaves the state as it was (R156). -/
inductive HostFailure where
  /-- `AddressOutOfRange` of a bus address, or of an index outside an array's bounds (20_memory R47, R49) -/
  | addressOutOfRange (addr : Nat)
  /-- the fault of `fetch_byte`, `fetch_word`, `execute` or `step` -/
  | fault (f : Fault)
  /-- a refusal of `execute` or `step`; the model has none -/
  | refused (r : Refusal)
  /-- a BankedMemory operation on the flat bus, which has no header, bank or selector (20_memory R50) -/
  | noBankedMemory
  /-- `execute` of a tag that is not in the closed set: the optional form under mode `absent` (30_encoding R78) -/
  | noSuchTag
  deriving DecidableEq, Repr

/-- What a host call answers. -/
inductive HostReply where
  | done
  | byte (v : Byte)
  | word (w : Word)
  | view (cs : Cells)
  | tag (t : Tag)
  /-- the `Next(miss)` of `step()` (00_scope R8, 60_exceptions R143) -/
  | stepped (miss : Bool)
  | failed (f : HostFailure)
  deriving DecidableEq, Repr

/-- `execute(tag)` as the host may call it (R78, R156): operands are read at the current PC, no opcode fetch. -/
def executeTag (t : Tag) (s : State) : Host.Outcome State Fault Refusal :=
  match fetchOperands t.form s with
  | .ok (i, u) => exec i u
  | .error e => .fault e

/-- The outcome of a step with its `miss` output (00_scope R8). -/
def stepReport (s : State) : Host.Outcome (State × Bool) Fault Refusal :=
  match step s with
  | .next t => .next (t, missOutput s)
  | .fault f => .fault f
  | .refused r => .refused r

/-- A host call that runs an instruction: its reply and the state after, which is the state before on a failure. -/
def hostOutcome (s : State) (reply : HostReply) : Host.Outcome State Fault Refusal → HostReply × State
  | .next t => (reply, t)
  | .fault f => (.failed (.fault f), s)
  | .refused r => (.failed (.refused r), s)

/-- A BankedMemory operation: only on the banked bus (20_memory R50). -/
def onBanked (s : State) (answer : HostReply × State) : HostReply × State :=
  match s.cfg.busKind with
  | .banked => answer
  | .flat => (.failed .noBankedMemory, s)

/-- Every host operation as a transition (R156). -/
def hostApply (op : HostOp) (s : State) : HostReply × State :=
  match op with
  | .construct => (.done, State.construct s.cfg)
  | .get8 r => (.byte (s.get8 r), s)
  | .get16 p => (.word (s.get16 p), s)
  | .set8 r v => (.done, s.set8 r v)
  | .set16 p v => (.done, s.set16 p v)
  | .increment8 r => (.done, s.inc8 r)
  | .decrement8 r => (.done, s.dec8 r)
  | .increment16 p => (.done, s.inc16 p)
  | .decrement16 p => (.done, s.dec16 p)
  | .selectBank id => onBanked s (.done, s.selectBank id)
  | .activeView => onBanked s (.view s.activeView, s)
  | .bankRead i => onBanked s
      (if i < bankLen then (.byte (s.mem.get (.bank s.sel i)), s) else (.failed (.addressOutOfRange i), s))
  | .bankWrite i v => onBanked s
      (if i < bankLen then (.done, s.setLoc (.bank s.sel i) v) else (.failed (.addressOutOfRange i), s))
  | .headerRead j => onBanked s
      (if j < headerLen then (.byte (s.mem.get (.header j)), s) else (.failed (.addressOutOfRange j), s))
  | .headerWrite j v => onBanked s
      (if j < headerLen then (.done, s.setLoc (.header j) v) else (.failed (.addressOutOfRange j), s))
  | .read8 addr =>
    match s.read8 addr with
    | some v => (.byte v, s)
    | none => (.failed (.addressOutOfRange addr.toNat), s)
  | .write8 addr v =>
    match s.write8 addr v with
    | some t => (.done, t)
    | none => (.failed (.addressOutOfRange addr.toNat), s)
  | .decode b => (.tag (decodeTag s.cfg b), s)
  | .fetchByte =>
    match fetchByte .fetchOperand s with
    | .ok (v, t) => (.byte v, t)
    | .error e => (.failed (.fault e), s)
  | .fetchWord =>
    match fetchWord s with
    | .ok (w, t) => (.word w, t)
    | .error e => (.failed (.fault e), s)
  | .execute t => if tagPresent s.cfg t then hostOutcome s .done (executeTag t s) else (.failed .noSuchTag, s)
  | .step => hostOutcome s (.stepped (missOutput s)) (step s)

/-- The state after a sequence of host operations: a session (70_reset_and_hazards R153, R157). -/
def hostRun : List HostOp → State → State
  | [], s => s
  | op :: rest, s => hostRun rest (hostApply op s).2

end Sys2Proof.Machine
end

