-- ==== Sys2Proof/Safety.lean ====
section
/-! DEFINITION. What claims call a good state, a safe step and a finished program. -/

namespace Sys2Proof.Machine

/-- The invariant of the machine: FLAGS has a zero low nibble (10_state R13), every storage array is in canonical form
and within its length (R37, R43), and the parameters are well formed (30_encoding R77, 20_memory R48, R50). -/
abbrev State.Inv (s : State) : Prop :=
  s.flagsLow = 0 ∧ s.mem.wf s.cfg.flatLen = true ∧ s.cfg.WellFormed

/-- A bus address that some location answers (20_memory R48, R50). -/
abbrev State.InRange (s : State) (addr : Word) : Prop := (s.locate addr).isSome = true

/-- The bytes at consecutive bus addresses from `addr` on, modulo 65536, are readable and are `bs`. -/
def State.BytesAt (s : State) (addr : Word) : List Byte → Prop
  | [] => True
  | b :: rest => s.read8 addr = some b ∧ State.BytesAt s (addr + 1) rest

/-- What a transition leaves alone outside memory: every 8-bit register not in `rs` (FLAGS is one of them), SP, the
bank selector and the parameters. PC is not mentioned. -/
def RegsFrame (rs : List Reg8) (s t : State) : Prop :=
  (∀ r, r ∉ rs → t.get8 r = s.get8 r) ∧ t.sp = s.sp ∧ t.sel = s.sel ∧ t.cfg = s.cfg

/-- Every byte of storage, visible on the bus or not, and every bus address reads as before. -/
def MemFrame (s t : State) : Prop :=
  (∀ l, t.mem.get l = s.mem.get l) ∧ ∀ addr, t.read8 addr = s.read8 addr

/-- The byte at `addr` reads as `v`; every other bus address and every storage location other than `l` reads as
before. -/
def StoreFrame (addr : Word) (l : Loc) (v : Byte) (s t : State) : Prop :=
  t.read8 addr = some v ∧ (∀ x, x ≠ addr → t.read8 x = s.read8 x) ∧ ∀ k, k ≠ l → t.mem.get k = s.mem.get k

/-- `exec i s` completes, register `r` then holds `v`, and nothing else changes, PC included. -/
def LoadsRegister (i : Instr) (s : State) (r : Reg8) (v : Byte) : Prop :=
  ∃ t, exec i s = .next t ∧ t.get8 r = v ∧ RegsFrame [r] s t ∧ MemFrame s t ∧ t.pc = s.pc

/-- `s` with PC moved past `n` bytes (10_state R17). -/
def State.advance (s : State) (n : Nat) : State := { s with pc := s.pc + BitVec.ofNat 16 n }

/-- A step that does not fault and is not refused. -/
def SafeStep (s : State) : Prop := ∃ t, step s = .next t

/-- A run of `n` steps that all answer a next state (70_reset_and_hazards R162). -/
def SafeRun (n : Nat) (s : State) : Prop := ∃ t, Sys2Proof.core.run n s = .next t

/-- "The program has ended" of R162: PC holds the address of an AbsoluteJump whose operand is that address. -/
def State.AtSelfJump (s : State) : Prop := s.BytesAt s.pc (encode s.cfg (.absoluteJump s.pc))

end Sys2Proof.Machine
end

