-- ==== Sys2Proof/Certificates/Slice0/Obligations.lean ====
section
/-! DEFINITION. The statements for the provers, each from the numbered rules of spec/. -/

open Sys2Proof Sys2Proof.Machine

/-! ### Encoding -/

/-- Decoding an encoded well-formed instruction gives it back with the bytes that follow, for every well-formed choice
of the parameters and every operand (30_encoding R73, R74, R76, R77). -/
def Obligations.DecodeOfEncode : Prop :=
  ∀ (c : Config) (i : Instr) (rest : List Byte), c.WellFormed → i.wellFormed c = true →
    decode c (encode c i ++ rest) = .ok (i, rest)

/-- Where decoding answers an instruction, that instruction is well formed and its encoding is the bytes consumed: no two
byte strings mean one instruction, and no bit is dropped (30_encoding R73, R74, R76). -/
def Obligations.EncodeOfDecode : Prop :=
  ∀ (c : Config) (bs : List Byte) (i : Instr) (rest : List Byte), decode c bs = .ok (i, rest) →
    i.wellFormed c = true ∧ encode c i ++ rest = bs

/-- R73: `decode(b)` is the tag whose opcode byte equals `b` if there is one and NoOp otherwise; 0xC3 is the absolute
jump and 0xFF maps to NoOp. -/
def Obligations.DecodeTagIsTotal : Prop :=
  ∀ c : Config, c.WellFormed →
    (∀ b t, (b, t) ∈ activeRows c → decodeTag c b = t) ∧
    (∀ b, (∀ t, (b, t) ∉ activeRows c) → decodeTag c b = .noOp) ∧
    decodeTag c 0xC3 = .absoluteJump ∧ decodeTag c 0xFF = .noOp

/-- Words written out from the spec's encodings, one of each family, decode to their instructions under the default
opcode bytes (95_test_vectors E5 to E9; every byte but 0xC3 is PRESUMED, log 2). -/
def Obligations.DefaultWordsDecode : Prop :=
  decode Config.default [0x00] = .ok (.noOp, []) ∧
  decode Config.default [0x01, 0x34, 0x12] = .ok (.loadImmediate16BC 0x1234, []) ∧
  decode Config.default [0x02] = .ok (.storeAIndirectBC, []) ∧
  decode Config.default [0x05] = .ok (.decrement8B, []) ∧
  decode Config.default [0x2E, 0x56] = .ok (.loadImmediate8L 0x56, []) ∧
  decode Config.default [0xC3, 0x00, 0x80] = .ok (.absoluteJump 0x8000, []) ∧
  decode Config.default [0x1E, 0x04] = .ok (.noOpMiss 0x1E, [0x04]) ∧
  decode { Config.default with hlIndMode := .memoryWrite } [0x36, 0x7F] = .ok (.loadImmediate8HLind 0x7F, [])

/-! ### The step -/

/-- A step runs the instruction that the bytes at PC decode to, at the state whose PC is past those bytes
(30_encoding R70, R79). The model's own convention that PC moves before `exec` runs is log 16. -/
def Obligations.StepRunsDecoded : Prop :=
  ∀ (s : State) (bs : List Byte) (i : Instr), s.BytesAt s.pc bs → decode s.cfg bs = .ok (i, []) →
    step s = exec i (s.advance bs.length)

/-- R70: a step is `fetch_byte`, then `decode`, then `execute(tag)`; if an access raises, the step is abandoned with the
state as it was before. -/
def Obligations.StepIsFetchDecodeExecute : Prop :=
  ∀ s : State,
    (∀ b t, fetchByte .fetchOpcode s = .ok (b, t) → step s = executeTag (decodeTag s.cfg b) t) ∧
    (∀ f, fetchByte .fetchOpcode s = .error f → step s = .fault f) ∧
    (∀ f, step s = .fault f → hostApply .step s = (.failed (.fault f), s))

/-- R8: a step answers exactly one of `Next(state', miss)` and `Fault(AddressOutOfRange(addr))`, the latter with the
state unchanged; it is never refused; `miss` is 1 exactly when the byte at PC has no tag. -/
def Obligations.StepNextOrFault : Prop :=
  ∀ s : State,
    (missOutput s = true ↔ ∃ b, s.read8 s.pc = some b ∧ ∀ t, (b, t) ∉ activeRows s.cfg) ∧
    ((∃ t, step s = .next t ∧ stepReport s = .next (t, missOutput s) ∧
      hostApply .step s = (.stepped (missOutput s), t)) ∨
    (∃ addr kind, step s = .fault (.addressOutOfRange addr kind) ∧
      stepReport s = .fault (.addressOutOfRange addr kind) ∧
      hostApply .step s = (.failed (.fault (.addressOutOfRange addr kind)), s)))

/-- Exactly which steps fault, at which access and with which address, the first access out of range being the one
reported (60_exceptions R130, R131, R134; the order and the kinds are the spec's decisions D3 and D17, log 4, log 12). -/
def Obligations.FaultCauses : Prop :=
  ∀ (s : State) (addr : Word) (kind : AccessKind),
    step s = .fault (.addressOutOfRange addr kind) ↔
      (s.read8 s.pc = none ∧ addr = s.pc ∧ kind = .fetchOpcode) ∨
      ∃ b, s.read8 s.pc = some b ∧
        ((2 ≤ (decodeTag s.cfg b).length ∧ s.read8 (s.pc + 1) = none ∧
            addr = s.pc + 1 ∧ kind = .fetchOperand) ∨
         ((decodeTag s.cfg b).length = 3 ∧ s.read8 (s.pc + 1) ≠ none ∧ s.read8 (s.pc + 2) = none ∧
            addr = s.pc + 2 ∧ kind = .fetchOperand) ∨
         (decodeTag s.cfg b = .storeAIndirectBC ∧ s.locate (s.get16 .bc) = none ∧
            addr = s.get16 .bc ∧ kind = .store) ∨
         (decodeTag s.cfg b = .loadImmediate8HLind ∧ s.cfg.hlIndMode = .memoryWrite ∧
            s.read8 (s.pc + 1) ≠ none ∧ s.locate (s.get16 .hl) = none ∧
            addr = s.get16 .hl ∧ kind = .store))

/-- After a step that does not jump, PC has advanced by the instruction's length modulo 65536 (10_state R17,
30_encoding R74, R79; the wrap is the spec's decision D6, log 6). -/
def Obligations.PcAdvancesByLength : Prop :=
  ∀ (s t : State) (b : Byte), step s = .next t → s.read8 s.pc = some b →
    decodeTag s.cfg b ≠ .absoluteJump → t.pc = s.pc + BitVec.ofNat 16 (decodeTag s.cfg b).length

/-- R78: the effect of `execute(tag)` for each of the thirteen tags, operands read at the current PC; the set is closed
except for the optional tag where its mode is not `absent`. -/
def Obligations.EffectTable : Prop :=
  ∀ s : State,
    executeTag .noOp s = .next s ∧
    (∀ w t, fetchWord s = .ok (w, t) → executeTag .loadImmediate16BC s = .next (t.set16 .bc w) ∧
      executeTag .absoluteJump s = .next (t.set16 .pc w)) ∧
    (∀ t, s.write8 (s.get16 .bc) (s.get8 .a) = some t → executeTag .storeAIndirectBC s = .next t) ∧
    (s.write8 (s.get16 .bc) (s.get8 .a) = none →
      executeTag .storeAIndirectBC s = .fault (.addressOutOfRange (s.get16 .bc) .store)) ∧
    executeTag .increment16BC s = .next (s.inc16 .bc) ∧
    executeTag .increment8B s = .next (s.inc8 .b) ∧
    executeTag .decrement8B s = .next (s.dec8 .b) ∧
    (∀ v t, fetchByte .fetchOperand s = .ok (v, t) →
      executeTag .loadImmediate8A s = .next (t.set8 .a v) ∧ executeTag .loadImmediate8B s = .next (t.set8 .b v) ∧
      executeTag .loadImmediate8C s = .next (t.set8 .c v) ∧ executeTag .loadImmediate8D s = .next (t.set8 .d v) ∧
      executeTag .loadImmediate8H s = .next (t.set8 .h v) ∧ executeTag .loadImmediate8L s = .next (t.set8 .l v)) ∧
    (∀ g, tagPresent s.cfg g = false ↔ g = .loadImmediate8HLind ∧ s.cfg.hlIndMode = .absent)

/-! ### Invariants and whole-machine rules -/

/-- Every step keeps the invariant: FLAGS has a zero low nibble, every storage array keeps its canonical form and its
length, and the parameters stay well formed (10_state R13, R37; 20_memory R43). -/
def Obligations.StepKeepsInv : Prop :=
  ∀ s t : State, s.Inv → step s = .next t → t.Inv

/-- Every host operation keeps the invariant (10_state R13: there is one write path to FLAGS and no way round it). -/
def Obligations.HostKeepsInv : Prop :=
  ∀ (op : HostOp) (s : State), s.Inv → (hostApply op s).2.Inv

/-- A new machine with well-formed parameters meets the invariant, the reset state among them. -/
def Obligations.ResetHasInv : Prop :=
  (∀ c : Config, c.WellFormed → (State.construct c).Inv) ∧ State.reset.Inv

/-- No instruction writes E, FLAGS, SP or the bank selector (10_state R36), nor the parameters (log 1): neither at `exec`
nor over a whole step. -/
def Obligations.NeverWritten : Prop :=
  (∀ (i : Instr) (s t : State), exec i s = .next t →
    t.e = s.e ∧ t.flags = s.flags ∧ t.sp = s.sp ∧ t.sel = s.sel ∧ t.cfg = s.cfg) ∧
  (∀ s t : State, step s = .next t →
    t.e = s.e ∧ t.flags = s.flags ∧ t.sp = s.sp ∧ t.sel = s.sel ∧ t.cfg = s.cfg)

/-- No instruction reads FLAGS, SP or E: a step from a state that differs only in them differs only in them, and faults
alike (10_state R15, R36). -/
def Obligations.NeverRead : Prop :=
  ∀ (s : State) (f : Byte) (p : Word) (v : Byte),
    (∀ t, step s = .next t →
      step { s with flags := f, sp := p, e := v } = .next { t with flags := f, sp := p, e := v }) ∧
    (∀ g, step s = .fault g → step { s with flags := f, sp := p, e := v } = .fault g)

/-- A bank that is not selected is neither read nor written by a step, whatever it holds: a step from a state that differs
only in such a bank differs only in it, and faults alike (20_memory R45, R46, R48). -/
def Obligations.HiddenBankIsolated : Prop :=
  ∀ (s : State) (id : BankId) (cs : Cells), id ≠ s.sel →
    (∀ t, step s = .next t → t.mem.bank id = s.mem.bank id ∧
      step { s with mem := s.mem.setBank id cs } = .next { t with mem := t.mem.setBank id cs }) ∧
    (∀ g, step s = .fault g → step { s with mem := s.mem.setBank id cs } = .fault g)

/-! ### Family 1, no-operation -/

/-- NoOp and NoOp.miss complete in every state and change nothing (40_noop R90, R91; 30_encoding R78). -/
def Obligations.NoOpCompletes : Prop :=
  ∀ (s : State) (n : Byte), exec .noOp s = .next s ∧ exec (.noOpMiss n) s = .next s

/-- A NoOp step changes exactly PC and its `miss` output is 0 (40_noop R90). -/
def Obligations.NoOpStep : Prop :=
  ∀ s : State, s.cfg.WellFormed → s.BytesAt s.pc [s.cfg.opc.nop] →
    step s = .next { s with pc := s.pc + 1 } ∧ missOutput s = false

/-- A byte of no tag is a one-byte instruction that changes exactly PC, and its `miss` output is 1 (40_noop R91,
30_encoding R80); 0xFF is such a byte under every well-formed choice of the parameters. -/
def Obligations.MissStep : Prop :=
  ∀ (s : State) (n : Byte), s.read8 s.pc = some n → n ∉ s.cfg.mappedBytes →
    step s = .next { s with pc := s.pc + 1 } ∧ missOutput s = true ∧
    (s.cfg.WellFormed → (0xFF : Byte) ∉ s.cfg.mappedBytes)

/-! ### Family 2, 16-bit immediate load -/

/-- LoadImmediate16(BC) completes in every state: BC is the operand, its high half in B, and nothing else changes
(41_load_immediate16 R95, 10_state R23). -/
def Obligations.LoadImmediate16Completes : Prop :=
  ∀ (s : State) (w : Word), ∃ t, exec (.loadImmediate16BC w) s = .next t ∧ t.get16 .bc = w ∧
    t.b.toNat = w.toNat / 256 ∧ t.c.toNat = w.toNat % 256 ∧
    RegsFrame [.b, .c] s t ∧ MemFrame s t ∧ t.pc = s.pc

/-- A LoadImmediate16(BC) step: the first operand byte goes to C, the second to B, and PC advances by 3
(41_load_immediate16 R95; the wrap of the addresses is the spec's decision D6, log 6). -/
def Obligations.LoadImmediate16Step : Prop :=
  ∀ (s : State) (lo hi : Byte), s.cfg.WellFormed → s.BytesAt s.pc [s.cfg.opc.ldBcD16, lo, hi] →
    step s = .next { s with b := hi, c := lo, pc := s.pc + 3 }

/-! ### Family 3, store -/

/-- StoreAIndirect(BC) completes exactly where the address in BC is in range: A is stored there, and nothing else
changes, neither a register nor another byte of storage (42_store_indirect R100, 20_memory R54). -/
def Obligations.StoreCompletes : Prop :=
  ∀ (s : State) (l : Loc), s.locate (s.pairAddress .bc) = some l →
    ∃ t, exec .storeAIndirectBC s = .next t ∧ RegsFrame [] s t ∧ t.pc = s.pc ∧
      (s.Inv → StoreFrame (s.pairAddress .bc) l s.a s t)

/-- StoreAIndirect(BC) faults where the address in BC is out of range (60_exceptions R131, 20_memory R49). -/
def Obligations.StoreFaultsOutOfRange : Prop :=
  ∀ s : State, s.locate (s.pairAddress .bc) = none →
    exec .storeAIndirectBC s = .fault (.addressOutOfRange (s.get16 .bc) .store)

/-- A StoreAIndirect(BC) step over the bus: PC advances by 1 and the byte at BC is A (42_store_indirect R100). -/
def Obligations.StoreStep : Prop :=
  ∀ (s : State) (l : Loc), s.cfg.WellFormed → s.BytesAt s.pc [s.cfg.opc.ldBcIndA] →
    s.locate (s.get16 .bc) = some l →
    step s = .next { s with pc := s.pc + 1, mem := s.mem.set l s.a }

/-- A store is seen by the very next fetch: a StoreAIndirect(BC) that stores to the byte after itself changes what the
next step decodes (20_memory R58). -/
def Obligations.StoreSeenByNextFetch : Prop :=
  ∀ s : State, s.Inv → s.BytesAt s.pc [s.cfg.opc.ldBcIndA] → s.get16 .bc = s.pc + 1 → s.InRange (s.pc + 1) →
    ∃ t, step s = .next t ∧ t.pc = s.pc + 1 ∧ t.read8 t.pc = some s.a ∧
      (s.a = s.cfg.opc.incB → step t = .next { t with b := s.b + 1, pc := s.pc + 2 })

/-! ### Family 4, increment and decrement -/

/-- Increment16(BC), Increment8(B) and Decrement8(B) complete in every state with the modular results of 43_inc_dec R105
to R108; no flag and nothing else changes. -/
def Obligations.IncDecComplete : Prop :=
  ∀ s : State,
    (∃ t, exec .increment16BC s = .next t ∧ (t.get16 .bc).toNat = ((s.get16 .bc).toNat + 1) % 65536 ∧
      RegsFrame [.b, .c] s t ∧ MemFrame s t ∧ t.pc = s.pc) ∧
    (∃ t, exec .increment8B s = .next t ∧ t.b.toNat = (s.b.toNat + 1) % 256 ∧
      RegsFrame [.b] s t ∧ MemFrame s t ∧ t.pc = s.pc) ∧
    (∃ t, exec .decrement8B s = .next t ∧ t.b.toNat = (s.b.toNat + 255) % 256 ∧
      RegsFrame [.b] s t ∧ MemFrame s t ∧ t.pc = s.pc)

/-- The three steps of the family: the carry of Increment16(BC) propagates from C into B, Increment8(B) and Decrement8(B)
leave C alone, and PC advances by 1 (43_inc_dec R105, R106, R107). -/
def Obligations.IncDecStep : Prop :=
  ∀ s : State, s.cfg.WellFormed →
    (s.BytesAt s.pc [s.cfg.opc.incBc] →
      step s = .next { s with b := if s.c = 0xFF then s.b + 1 else s.b, c := s.c + 1, pc := s.pc + 1 }) ∧
    (s.BytesAt s.pc [s.cfg.opc.incB] → step s = .next { s with b := s.b + 1, pc := s.pc + 1 }) ∧
    (s.BytesAt s.pc [s.cfg.opc.decB] → step s = .next { s with b := s.b - 1, pc := s.pc + 1 })

/-- Increment8(B) followed by Decrement8(B) at consecutive addresses restores B: only PC differs (43_inc_dec R108). -/
def Obligations.IncThenDecRestores : Prop :=
  ∀ s : State, s.cfg.WellFormed → s.BytesAt s.pc [s.cfg.opc.incB, s.cfg.opc.decB] →
    Sys2Proof.core.run 2 s = .next { s with pc := s.pc + 2 }

/-! ### Family 5, 8-bit immediate loads -/

/-- Each of the six LoadImmediate8 instructions completes in every state: the named register holds the operand and
nothing else changes (44_load_immediate8 R110 to R115, R118). -/
def Obligations.LoadImmediate8Completes : Prop :=
  ∀ (s : State) (v : Byte),
    LoadsRegister (.loadImmediate8A v) s .a v ∧ LoadsRegister (.loadImmediate8B v) s .b v ∧
    LoadsRegister (.loadImmediate8C v) s .c v ∧ LoadsRegister (.loadImmediate8D v) s .d v ∧
    LoadsRegister (.loadImmediate8H v) s .h v ∧ LoadsRegister (.loadImmediate8L v) s .l v

/-- The six LoadImmediate8 steps: the operand byte is consumed, so PC advances by 2 (44_load_immediate8 R118; the wrap of
the operand address is the spec's decision D6, log 6). -/
def Obligations.LoadImmediate8Step : Prop :=
  ∀ (s : State) (v : Byte), s.cfg.WellFormed →
    (s.BytesAt s.pc [s.cfg.opc.ldAD8, v] → step s = .next { s with a := v, pc := s.pc + 2 }) ∧
    (s.BytesAt s.pc [s.cfg.opc.ldBD8, v] → step s = .next { s with b := v, pc := s.pc + 2 }) ∧
    (s.BytesAt s.pc [s.cfg.opc.ldCD8, v] → step s = .next { s with c := v, pc := s.pc + 2 }) ∧
    (s.BytesAt s.pc [s.cfg.opc.ldDD8, v] → step s = .next { s with d := v, pc := s.pc + 2 }) ∧
    (s.BytesAt s.pc [s.cfg.opc.ldHD8, v] → step s = .next { s with h := v, pc := s.pc + 2 }) ∧
    (s.BytesAt s.pc [s.cfg.opc.ldLD8, v] → step s = .next { s with l := v, pc := s.pc + 2 })

/-- The optional (HL)-form in each mode (44_load_immediate8 R116): under `overwrite_pair` it completes with H = 0 and
L the operand (the spec's decision D7, log 8); under `memory_write` it stores the operand at HL where that is in range
and faults where it is not; under `absent`, where no byte decodes to it, it has a miss's effect (log 7). -/
def Obligations.LoadImmediate8HLindCompletes : Prop :=
  ∀ (s : State) (v : Byte),
    (s.cfg.hlIndMode = .overwritePair → ∃ t, exec (.loadImmediate8HLind v) s = .next t ∧ t.h = 0 ∧ t.l = v ∧
      RegsFrame [.h, .l] s t ∧ MemFrame s t ∧ t.pc = s.pc) ∧
    (s.cfg.hlIndMode = .memoryWrite → ∀ l, s.locate (s.pairAddress .hl) = some l →
      ∃ t, exec (.loadImmediate8HLind v) s = .next t ∧ RegsFrame [] s t ∧ t.pc = s.pc ∧
        (s.Inv → StoreFrame (s.pairAddress .hl) l v s t)) ∧
    (s.cfg.hlIndMode = .memoryWrite → s.locate (s.pairAddress .hl) = none →
      exec (.loadImmediate8HLind v) s = .fault (.addressOutOfRange (s.get16 .hl) .store)) ∧
    (s.cfg.hlIndMode = .absent → exec (.loadImmediate8HLind v) s = .next s)

/-- A step at the optional form's byte in each mode: a one-byte miss under `absent`, and two bytes long otherwise
(44_load_immediate8 R116; H = 0 under `overwrite_pair` is the spec's decision D7, log 8). -/
def Obligations.LoadImmediate8HLindStep : Prop :=
  ∀ (s : State) (v : Byte), s.cfg.WellFormed → s.BytesAt s.pc [s.cfg.opc.ldHLindD8, v] →
    (s.cfg.hlIndMode = .absent → step s = .next { s with pc := s.pc + 1 } ∧ missOutput s = true) ∧
    (s.cfg.hlIndMode = .overwritePair →
      step s = .next { s with h := 0, l := v, pc := s.pc + 2 } ∧ missOutput s = false) ∧
    (s.cfg.hlIndMode = .memoryWrite → ∀ l, s.locate (s.get16 .hl) = some l →
      step s = .next { s with pc := s.pc + 2, mem := s.mem.set l v } ∧ missOutput s = false)

/-! ### Family 6, control transfer -/

/-- AbsoluteJump completes in every state, whatever its target: PC is the target and nothing else changes
(45_jump R120). -/
def Obligations.JumpCompletes : Prop :=
  ∀ (s : State) (w : Word), ∃ t, exec (.absoluteJump w) s = .next t ∧ t.pc = w ∧ RegsFrame [] s t ∧ MemFrame s t

/-- An AbsoluteJump step: PC is the little-endian operand, and a target out of range faults at the next step's opcode
fetch and not before (45_jump R120, 60_exceptions R131). -/
def Obligations.JumpStep : Prop :=
  ∀ (s : State) (lo hi : Byte), s.cfg.WellFormed → s.BytesAt s.pc [s.cfg.opc.jp, lo, hi] →
    step s = .next { s with pc := mkWord hi lo } ∧ (mkWord hi lo).toNat = hi.toNat * 256 + lo.toNat ∧
    (s.locate (mkWord hi lo) = none →
      step { s with pc := mkWord hi lo } = .fault (.addressOutOfRange (mkWord hi lo) .fetchOpcode))

/-- A jump to its own address is a fixed point: from then on every number of steps leaves the state unchanged
(45_jump R120, 70_reset_and_hazards R162). -/
def Obligations.SelfJumpIsFixedPoint : Prop :=
  ∀ (s : State) (n : Nat), s.cfg.WellFormed → s.AtSelfJump → Sys2Proof.core.run n s = .next s

/-! ### Registers and flags -/

/-- R13: every write to FLAGS, direct, by pair or by increment or decrement, stores the offered byte with a zero low
nibble and has no other effect on FLAGS; hence the low nibble is zero in every state a host and its steps can reach. -/
def Obligations.FlagsWritePath : Prop :=
  (∀ (s : State) (v : Byte), s.set8 .flags v = { s with flags := v &&& 0xF0 }) ∧
  (∀ (s : State) (w : Word), (s.set16 .af w).flags = loByte w &&& 0xF0) ∧
  (∀ s : State, (s.inc8 .flags).flags = (s.flags + 1) &&& 0xF0 ∧ (s.dec8 .flags).flags = (s.flags - 1) &&& 0xF0) ∧
  (∀ (ops : List HostOp) (c : Config), (hostRun ops (State.construct c)).flags &&& 0x0F = 0)

/-- R12 and R14: FLAGS read whole is Z, N, H and C in bits 7 to 4 over a zero low nibble, and a read returns the stored
byte unchanged. -/
def Obligations.FlagsLayout : Prop :=
  ∀ s : State, s.get8 .flags = s.flags ∧
    (s.flagsLow = 0 → s.flags.toNat =
      128 * s.flagZ.toNat + 64 * s.flagN.toNat + 32 * s.flagH.toNat + 16 * s.flagC.toNat) ∧
    ∀ (v : Byte) (k : Nat), k < 4 → ((s.set8 .flags v).get8 .flags).getLsbD k = false

/-- R20 and R21: `set8` writes the named register, FLAGS through the mask, and no other register; `get8` reads it. -/
def Obligations.Set8WritesOneRegister : Prop :=
  ∀ (s : State) (r : Reg8) (v : Byte),
    (s.set8 r v).get8 r = (if r = .flags then v &&& 0xF0 else v) ∧ RegsFrame [r] s (s.set8 r v) ∧
    (s.set8 r v).pc = s.pc ∧ (s.set8 r v).mem = s.mem ∧
    (s.get8 .a = s.a ∧ s.get8 .b = s.b ∧ s.get8 .c = s.c ∧ s.get8 .d = s.d ∧ s.get8 .e = s.e ∧
      s.get8 .h = s.h ∧ s.get8 .l = s.l ∧ s.get8 .flags = s.flags) ∧
    (∀ r', hostApply (.get8 r') s = (.byte (s.get8 r'), s)) ∧ hostApply (.set8 r v) s = (.done, s.set8 r v)

/-- R22 and R23: a 16-bit write is read back whole, AF without its low nibble; a pair is its two halves, high byte
first; no other register changes. -/
def Obligations.Set16SplitsPairs : Prop :=
  ∀ (s : State) (w : Word),
    ((s.set16 .af w).a.toNat = w.toNat / 256 ∧ (s.set16 .af w).flags = loByte w &&& 0xF0 ∧
      (s.set16 .af w).get16 .af = w &&& 0xFFF0) ∧
    ((s.set16 .bc w).b.toNat = w.toNat / 256 ∧ (s.set16 .bc w).c.toNat = w.toNat % 256) ∧
    ((s.set16 .de w).d.toNat = w.toNat / 256 ∧ (s.set16 .de w).e.toNat = w.toNat % 256) ∧
    ((s.set16 .hl w).h.toNat = w.toNat / 256 ∧ (s.set16 .hl w).l.toNat = w.toNat % 256) ∧
    (s.set16 .pc w = { s with pc := w } ∧ s.set16 .sp w = { s with sp := w }) ∧
    (RegsFrame [.a, .flags] s (s.set16 .af w) ∧ RegsFrame [.b, .c] s (s.set16 .bc w) ∧
      RegsFrame [.d, .e] s (s.set16 .de w) ∧ RegsFrame [.h, .l] s (s.set16 .hl w)) ∧
    (∀ p, (s.set16 p w).mem = s.mem ∧ (p ≠ .pc → (s.set16 p w).pc = s.pc)) ∧
    (∀ p, p ≠ .af → (s.set16 p w).get16 p = w) ∧
    (s.get16 .af).toNat = s.a.toNat * 256 + s.flags.toNat ∧ (s.get16 .bc).toNat = s.b.toNat * 256 + s.c.toNat ∧
    (s.get16 .de).toNat = s.d.toNat * 256 + s.e.toNat ∧ (s.get16 .hl).toNat = s.h.toNat * 256 + s.l.toNat ∧
    s.get16 .pc = s.pc ∧ s.get16 .sp = s.sp

/-- R25: 8-bit increment and decrement are modulo 256 and change nothing else, FLAGS included. -/
def Obligations.IncDec8Modular : Prop :=
  ∀ (s : State) (r : Reg8),
    (r ≠ .flags → ((s.inc8 r).get8 r).toNat = ((s.get8 r).toNat + 1) % 256 ∧
      ((s.dec8 r).get8 r).toNat = ((s.get8 r).toNat + 255) % 256) ∧
    (s.inc8 r = s.set8 r (s.get8 r + 1) ∧ s.dec8 r = s.set8 r (s.get8 r - 1)) ∧
    RegsFrame [r] s (s.inc8 r) ∧ RegsFrame [r] s (s.dec8 r) ∧
    (s.inc8 r).pc = s.pc ∧ (s.dec8 r).pc = s.pc ∧ (s.inc8 r).mem = s.mem ∧ (s.dec8 r).mem = s.mem

/-- R26: 16-bit increment and decrement are modulo 65536; the flags stay as they are unless the pair is AF. -/
def Obligations.IncDec16Modular : Prop :=
  ∀ (s : State) (p : Reg16),
    (p ≠ .af → ((s.inc16 p).get16 p).toNat = ((s.get16 p).toNat + 1) % 65536 ∧
      ((s.dec16 p).get16 p).toNat = ((s.get16 p).toNat + 65535) % 65536 ∧
      (s.inc16 p).flags = s.flags ∧ (s.dec16 p).flags = s.flags) ∧
    (s.inc16 p = s.set16 p (s.get16 p + 1) ∧ s.dec16 p = s.set16 p (s.get16 p - 1))

/-- The corner cases on the flags byte: the write-back of an increment or decrement goes through the mask
(10_state R27, which the spec derives). -/
def Obligations.FlagsIncDecCorners : Prop :=
  ∀ s : State, s.flagsLow = 0 →
    s.inc8 .flags = s ∧ (s.dec8 .flags).flags = s.flags - 0x10 ∧ s.inc16 .af = s ∧
    (s.dec16 .af).get16 .af = s.get16 .af - 0x10

/-! ### Memory, the bus and the banks -/

/-- A successful bus write replaces the byte at the location its address reaches and changes nothing else: the address
reads back the byte written, every other bus address and every other storage location, whether the bus shows it or not
(the unselected banks, the other bus kind's arrays), reads as before, and no register changes (20_memory R41, R46,
R54). -/
def Obligations.BusReadAfterWrite : Prop :=
  ∀ (s t : State) (addr : Word) (v : Byte), s.Inv → s.write8 addr v = some t →
    ∃ l, s.locate addr = some l ∧ StoreFrame addr l v s t ∧ t.mem.get l = v ∧ RegsFrame [] s t ∧ t.pc = s.pc

/-- The address map: on the banked bus exactly the header range and the window are in range, on the flat bus exactly the
addresses below FLAT_LEN, each of which reaches, for a read and for a write, the byte of the buffer at that index;
outside the map a read and a write both fail (20_memory R48, R49, R50; the bases are the spec's decision D2, log 3). -/
def Obligations.AddressMap : Prop :=
  ∀ (s : State) (addr : Word),
    (s.cfg.busKind = .banked → (s.InRange addr ↔
      (s.cfg.headerBase ≤ addr.toNat ∧ addr.toNat < s.cfg.headerBase + 80) ∨
      (s.cfg.windowBase ≤ addr.toNat ∧ addr.toNat < s.cfg.windowBase + 16384))) ∧
    (s.cfg.busKind = .flat → (s.InRange addr ↔ addr.toNat < s.cfg.flatLen)) ∧
    (s.cfg.busKind = .flat → addr.toNat < s.cfg.flatLen →
      s.locate addr = some (.buf addr.toNat) ∧ s.read8 addr = some (readCell s.mem.buf addr.toNat) ∧
      ∀ v, s.write8 addr v =
        some { s with mem := { s.mem with buf := writeCell s.mem.buf addr.toNat v } }) ∧
    (¬ s.InRange addr → s.read8 addr = none ∧ ∀ v, s.write8 addr v = none)

/-- Under well-formed parameters a window address reaches the byte of the selected bank and a header address the byte of
the header, whatever bank is selected, and no two bus addresses reach one location (20_memory R45, R48, R54). -/
def Obligations.WindowShowsSelectedBank : Prop :=
  ∀ s : State, s.cfg.WellFormed → s.cfg.busKind = .banked →
    (∀ i, i < 16384 → s.locate (BitVec.ofNat 16 (s.cfg.windowBase + i)) = some (.bank s.sel i) ∧
      s.read8 (BitVec.ofNat 16 (s.cfg.windowBase + i)) = some (readCell s.activeView i)) ∧
    (∀ j, j < 80 → s.locate (BitVec.ofNat 16 (s.cfg.headerBase + j)) = some (.header j) ∧
      s.read8 (BitVec.ofNat 16 (s.cfg.headerBase + j)) = some (readCell s.mem.header j)) ∧
    (∀ x y l, s.locate x = some l → s.locate y = some l → x = y)

/-- Writing a bank is never seen through another bank's view or through the header, and the bank shows the write when it
is selected again (20_memory R46). -/
def Obligations.BanksAreIndependent : Prop :=
  ∀ (s : State) (i : Nat) (v : Byte) (id : BankId), s.Inv → s.cfg.busKind = .banked → i < 16384 →
    (∀ k, readCell ((hostApply (.bankWrite i v) s).2.selectBank id).activeView k =
      if id = s.sel ∧ k = i then v else readCell (s.mem.bank id) k) ∧
    (hostApply (.bankWrite i v) s).2.mem.header = s.mem.header

/-- R44: `select_bank` sets the selector and moves no byte; selecting the active bank changes nothing; no instruction and
no bus write performs it. -/
def Obligations.SelectBankMovesNoData : Prop :=
  (∀ (s : State) (id : BankId), s.cfg.busKind = .banked →
    hostApply (.selectBank id) s = (.done, { s with sel := id }) ∧
    (id = s.sel → hostApply (.selectBank id) s = (.done, s))) ∧
  (∀ s t : State, step s = .next t → t.sel = s.sel) ∧
  (∀ (s t : State) (addr : Word) (v : Byte), s.write8 addr v = some t → t.sel = s.sel)

/-- Host indexed access reads and writes the header and the selected bank inside their bounds, and outside them fails and
changes nothing (20_memory R47, R49; that the header is writable is the spec's decision D15, log 10). -/
def Obligations.IndexedAccessBounds : Prop :=
  ∀ (s : State) (i : Nat) (v : Byte), s.Inv → s.cfg.busKind = .banked →
    (i < 16384 → hostApply (.bankRead i) (hostApply (.bankWrite i v) s).2 =
      (.byte v, (hostApply (.bankWrite i v) s).2)) ∧
    (i < 80 → hostApply (.headerRead i) (hostApply (.headerWrite i v) s).2 =
      (.byte v, (hostApply (.headerWrite i v) s).2)) ∧
    (16384 ≤ i → hostApply (.bankRead i) s = (.failed (.addressOutOfRange i), s) ∧
      hostApply (.bankWrite i v) s = (.failed (.addressOutOfRange i), s)) ∧
    (80 ≤ i → hostApply (.headerRead i) s = (.failed (.addressOutOfRange i), s) ∧
      hostApply (.headerWrite i v) s = (.failed (.addressOutOfRange i), s))

/-! ### Fetch and reset -/

/-- R71: `fetch_byte` reads the byte at PC and then advances PC by 1 modulo 65536; if the read raises, PC has not
moved. -/
def Obligations.FetchByteReadsThenAdvances : Prop :=
  ∀ s : State,
    (∀ k v, s.read8 s.pc = some v → fetchByte k s = .ok (v, { s with pc := s.pc + 1 }) ∧
      hostApply .fetchByte s = (.byte v, { s with pc := s.pc + 1 })) ∧
    (s.read8 s.pc = none → (∀ k, fetchByte k s = .error (.addressOutOfRange s.pc k)) ∧
      (hostApply .fetchByte s).2 = s) ∧
    (s.pc = 0xFFFF → s.pc + 1 = 0x0000)

/-- `fetch_word` is two `fetch_byte`s composed little-endian, and a fault leaves PC where it was (30_encoding R72; the
read order and the wrap are the spec's decisions D17 and D6, log 12, log 6). -/
def Obligations.FetchWordIsTwoFetchBytes : Prop :=
  ∀ s : State,
    (∀ lo hi t u, fetchByte .fetchOperand s = .ok (lo, t) → fetchByte .fetchOperand t = .ok (hi, u) →
      fetchWord s = .ok (mkWord hi lo, u) ∧ u.pc = s.pc + 2) ∧
    (∀ f, fetchByte .fetchOperand s = .error f → fetchWord s = .error f) ∧
    (∀ lo t f, fetchByte .fetchOperand s = .ok (lo, t) → fetchByte .fetchOperand t = .error f →
      fetchWord s = .error f) ∧
    (∀ f, fetchWord s = .error f → (hostApply .fetchWord s).2 = s)

/-- The reset values: every register zero, every byte of every array zero, and the selector Bank1 (10_state R35,
70_reset_and_hazards R150; Bank1 is the spec's decision D4, log 5, and the zero of the flat buffer is the model's choice,
log 11). The first step from reset runs the NoOp byte at address 0 under the default parameters (log 2, log 3). -/
def Obligations.ResetValues : Prop :=
  (∀ (c : Config), (∀ r, (State.construct c).get8 r = 0) ∧ (∀ p, (State.construct c).get16 p = 0) ∧
    (∀ l, (State.construct c).mem.get l = 0) ∧ (State.construct c).sel = .bank1) ∧
  step State.reset = .next { State.reset with pc := 0x0001 }
end

