-- ==== Sys2Proof/Laws/Decode.lean ====
section
/-! SUPPORT. What the tag lookup answers, once: it finds exactly the rows of the map (30_encoding R73, R77). -/

namespace Sys2Proof

/-- A lookup that answers names a row. -/
theorem lookup_mem {α : Type} (rows : List (Byte × α)) (b : Byte) (t : α) (h : rows.lookup b = some t) :
    (b, t) ∈ rows := by
  induction rows with
  | nil => cases h
  | cons hd rest ih =>
    obtain ⟨k, u⟩ := hd
    by_cases hk : b = k
    · subst hk; simp at h; simp [h]
    · rw [List.lookup_cons, show (b == k) = false by simpa using hk] at h
      exact List.mem_cons_of_mem _ (ih h)

/-- In a table whose bytes are distinct, the lookup finds every row. -/
theorem lookup_of_mem {α : Type} (rows : List (Byte × α)) (b : Byte) (t : α)
    (hn : (rows.map Prod.fst).Nodup) (h : (b, t) ∈ rows) : rows.lookup b = some t := by
  induction rows with
  | nil => cases h
  | cons hd rest ih =>
    obtain ⟨k, u⟩ := hd
    simp only [List.map_cons, List.nodup_cons] at hn
    rcases List.mem_cons.mp h with he | hm
    · cases he; simp
    · have hk : b ≠ k := by
        rintro rfl
        exact hn.1 (List.mem_map_of_mem (f := Prod.fst) hm)
      rw [List.lookup_cons, show (b == k) = false by simpa using hk]
      exact ih hn.2 hm

/-- A lookup fails exactly on the bytes of no row. -/
theorem lookup_none {α : Type} (rows : List (Byte × α)) (b : Byte) :
    rows.lookup b = none ↔ b ∉ rows.map Prod.fst := by
  induction rows with
  | nil => simp
  | cons hd rest ih =>
    obtain ⟨k, u⟩ := hd
    by_cases hk : b = k
    · simp [hk]
    · rw [List.lookup_cons, show (b == k) = false by simpa using hk]
      simp only [List.map_cons, List.mem_cons, hk, false_or]
      exact ih

/-- The bytes of the active rows are the mapped bytes. -/
theorem activeRows_bytes (c : Config) : (activeRows c).map Prod.fst = c.mappedBytes := by
  unfold activeRows Config.mappedBytes
  cases c.hlIndMode <;> rfl

/-- Under well-formed parameters the mapped bytes are distinct. -/
theorem mappedBytes_nodup (c : Config) (h : c.WellFormed) : c.mappedBytes.Nodup := by
  have h := h.1.1
  unfold Config.mappedBytes
  cases c.hlIndMode
  · unfold OpcodeMap.all at h; exact (List.nodup_append.mp h).1
  · exact h
  · exact h

/-- Under well-formed parameters the lookup finds every active row. -/
theorem lookupTag_of_row (c : Config) (h : c.WellFormed) (b : Byte) (t : Tag) (hr : (b, t) ∈ activeRows c) :
    lookupTag c b = some t :=
  lookup_of_mem _ _ _ (activeRows_bytes c ▸ mappedBytes_nodup c h) hr

/-- The active rows are the present tags, each with its opcode byte. -/
theorem mem_activeRows (c : Config) (b : Byte) (t : Tag) :
    (b, t) ∈ activeRows c ↔ b = c.opc.byteOf t ∧ tagPresent c t = true := by
  unfold activeRows tagPresent
  cases hc : c.hlIndMode <;> cases t <;> simp [requiredRows, OpcodeMap.byteOf]

/-- Under well-formed parameters the opcode byte of a present tag decodes to it (R73, R77). -/
theorem lookupTag_byteOf (c : Config) (h : c.WellFormed) (t : Tag) (hp : tagPresent c t = true) :
    lookupTag c (c.opc.byteOf t) = some t :=
  lookupTag_of_row c h _ t ((mem_activeRows c _ t).2 ⟨rfl, hp⟩)

/-- A byte that decodes to a tag is that tag's opcode byte, and the tag is present. -/
theorem byteOf_of_lookupTag (c : Config) (b : Byte) (t : Tag) (h : lookupTag c b = some t) :
    b = c.opc.byteOf t ∧ tagPresent c t = true :=
  (mem_activeRows c b t).1 (lookup_mem _ _ _ h)

/-- The format of the opcode byte of a present tag is the tag's. -/
theorem formOf_byteOf (c : Config) (h : c.WellFormed) (t : Tag) (hp : tagPresent c t = true) :
    formOf c (c.opc.byteOf t) = t.form := by
  simp [formOf, lookupTag_byteOf c h t hp]

/-- A byte has no tag exactly when it is no mapped byte (R80). -/
theorem lookupTag_none (c : Config) (b : Byte) : lookupTag c b = none ↔ b ∉ c.mappedBytes := by
  unfold lookupTag; rw [lookup_none, activeRows_bytes]

/-- 0xFF is a decode miss under well-formed parameters (R77). -/
theorem lookupTag_ff (c : Config) (h : c.WellFormed) : lookupTag c 0xFF = none := by
  rw [lookupTag_none]
  intro hm
  apply h.1.2.1
  unfold Config.mappedBytes at hm
  unfold OpcodeMap.all at hm ⊢
  cases hc : c.hlIndMode <;> simp only [hc] at hm
  · exact List.mem_append_left _ hm
  · exact hm
  · exact hm

end Sys2Proof
end

