-- ==== Sys2Proof/Laws/State.lean ====
section
/-! SUPPORT. What each register update does to each field and to each accessor, once, for every later proof. -/

namespace Sys2Proof.Machine

@[simp] theorem hiByte_mkWord (hi lo : Byte) : hiByte (mkWord hi lo) = hi := by
  ext i h
  simp only [hiByte, mkWord, BitVec.getElem_extractLsb', BitVec.getLsbD_append]
  simp [h]

@[simp] theorem loByte_mkWord (hi lo : Byte) : loByte (mkWord hi lo) = lo := by
  ext i h
  simp only [loByte, mkWord, BitVec.getElem_extractLsb', BitVec.getLsbD_append]
  simp [h]

@[simp] theorem mkWord_hi_lo (w : Word) : mkWord (hiByte w) (loByte w) = w := by
  apply BitVec.eq_of_getLsbD_eq
  intro i h
  simp only [mkWord, hiByte, loByte, BitVec.getLsbD_append, BitVec.getLsbD_extractLsb']
  split
  · next hi => simp [hi]
  · next hi => rw [show 8 + (i - 8) = i by omega]; simp [show i - 8 < 8 by omega]

/-- `{hi, lo}` as a number: the high byte weighs 256 (10_state R16). -/
theorem mkWord_toNat (hi lo : Byte) : (mkWord hi lo).toNat = hi.toNat * 256 + lo.toNat := by
  have happ : (hi ++ lo : BitVec (8 + 8)).toNat = hi.toNat <<< 8 ||| lo.toNat := BitVec.toNat_append ..
  have hlo : lo.toNat < 2 ^ 8 := lo.isLt
  refine happ.trans ?_
  rw [Nat.shiftLeft_eq, Nat.mul_comm, ← Nat.two_pow_add_eq_or_of_lt hlo]

/-- `v >> 8` (10_state R23). -/
theorem hiByte_toNat (w : Word) : (hiByte w).toNat = w.toNat / 256 := by
  have h := mkWord_toNat (hiByte w) (loByte w)
  rw [mkWord_hi_lo] at h
  have := (loByte w).isLt
  omega

/-- `v & 0xFF` (10_state R23). -/
theorem loByte_toNat (w : Word) : (loByte w).toNat = w.toNat % 256 := by
  have h := mkWord_toNat (hiByte w) (loByte w)
  rw [mkWord_hi_lo] at h
  have := (loByte w).isLt
  omega

variable (s : State) (r : Reg8) (p : Reg16) (v : Byte) (w : Word)

/-! `set8`: the fields that no 8-bit write touches. -/

@[simp] theorem State.set8_pc : (s.set8 r v).pc = s.pc := by cases r <;> rfl
@[simp] theorem State.set8_sp : (s.set8 r v).sp = s.sp := by cases r <;> rfl
@[simp] theorem State.set8_sel : (s.set8 r v).sel = s.sel := by cases r <;> rfl
@[simp] theorem State.set8_mem : (s.set8 r v).mem = s.mem := by cases r <;> rfl
@[simp] theorem State.set8_cfg : (s.set8 r v).cfg = s.cfg := by cases r <;> rfl

/-- A register read after an 8-bit write (10_state R10, R21): the register written, FLAGS through the mask; every
other register as before. -/
theorem State.get8_set8 (r' : Reg8) :
    (s.set8 r v).get8 r' = if r' = r then (if r = .flags then maskFlags v else v) else s.get8 r' := by
  cases r <;> cases r' <;> rfl

/-! `set16`: the fields that no 16-bit write touches. -/

@[simp] theorem State.set16_sel : (s.set16 p w).sel = s.sel := by cases p <;> rfl
@[simp] theorem State.set16_mem : (s.set16 p w).mem = s.mem := by cases p <;> rfl
@[simp] theorem State.set16_cfg : (s.set16 p w).cfg = s.cfg := by cases p <;> rfl
@[simp] theorem State.set16_pc_pc : (s.set16 .pc w).pc = w := rfl
@[simp] theorem State.set16_pc_eq : s.set16 .pc w = { s with pc := w } := rfl
@[simp] theorem State.inc16_pc_eq : s.inc16 .pc = { s with pc := s.pc + 1 } := rfl

/-- A 16-bit read after a 16-bit write of the same selector (R22, R23). -/
theorem State.get16_set16_same :
    (s.set16 p w).get16 p = match p with
      | .af => mkWord (hiByte w) (maskFlags (loByte w))
      | .bc => w
      | .de => w
      | .hl => w
      | .pc => w
      | .sp => w := by
  cases p <;> simp [State.set16, State.set8, State.get16]

/-- A pair write is the write of its two halves, field by field (R23). -/
theorem State.set16_fields : s.set16 p w = match p with
      | .af => { s with a := hiByte w, flags := maskFlags (loByte w) }
      | .bc => { s with b := hiByte w, c := loByte w }
      | .de => { s with d := hiByte w, e := loByte w }
      | .hl => { s with h := hiByte w, l := loByte w }
      | .pc => { s with pc := w }
      | .sp => { s with sp := w } := by
  cases p <;> rfl

/-! `setLoc` and `selectBank`: memory and the selector, and no register. -/

@[simp] theorem State.setLoc_mem (l : Loc) : (s.setLoc l v).mem = s.mem.set l v := rfl
@[simp] theorem State.setLoc_pc (l : Loc) : (s.setLoc l v).pc = s.pc := rfl
@[simp] theorem State.setLoc_sp (l : Loc) : (s.setLoc l v).sp = s.sp := rfl
@[simp] theorem State.setLoc_sel (l : Loc) : (s.setLoc l v).sel = s.sel := rfl
@[simp] theorem State.setLoc_cfg (l : Loc) : (s.setLoc l v).cfg = s.cfg := rfl
@[simp] theorem State.setLoc_flags (l : Loc) : (s.setLoc l v).flags = s.flags := rfl
@[simp] theorem State.setLoc_get8 (l : Loc) : (s.setLoc l v).get8 r = s.get8 r := by cases r <;> rfl
@[simp] theorem State.setLoc_get16 (l : Loc) : (s.setLoc l v).get16 p = s.get16 p := by cases p <;> rfl
@[simp] theorem State.setLoc_locate (l : Loc) (addr : Word) : (s.setLoc l v).locate addr = s.locate addr := rfl
@[simp] theorem State.selectBank_sel (id : BankId) : (s.selectBank id).sel = id := rfl
@[simp] theorem State.selectBank_mem (id : BankId) : (s.selectBank id).mem = s.mem := rfl
@[simp] theorem State.selectBank_cfg (id : BankId) : (s.selectBank id).cfg = s.cfg := rfl

/-! FLAGS and the mask (R13). -/

/-- The mask leaves a zero low nibble. -/
@[simp] theorem maskFlags_low : maskFlags v &&& 0x0F = 0 := by
  unfold maskFlags; rw [BitVec.and_assoc]; simp

/-- The mask changes nothing in a byte whose low nibble is zero already. -/
theorem maskFlags_of_low (h : v &&& 0x0F = 0) : maskFlags v = v := by
  revert h; revert v; unfold maskFlags; decide

/-- An 8-bit write keeps the low nibble of FLAGS zero. -/
theorem State.set8_flagsLow (h : s.flagsLow = 0) : (s.set8 r v).flagsLow = 0 := by
  cases r <;> first | exact h | exact maskFlags_low v

/-- A 16-bit write keeps the low nibble of FLAGS zero. -/
theorem State.set16_flagsLow (h : s.flagsLow = 0) : (s.set16 p w).flagsLow = 0 := by
  cases p <;> first | exact h | exact maskFlags_low _

end Sys2Proof.Machine
end

