-- ==== Sys2Proof/Laws/Memory.lean ====
section
/-! SUPPORT. The storage laws: arrays keep their canonical form, a write is read back and leaves every other location
alone, and the address map is one-to-one (20_memory R46, R48, R54). -/

namespace Sys2Proof.Machine

/-- An array whose entries start above `i` reads as unlisted at `i`. -/
theorem readCell_below (cs : Cells) (lo len i : Nat) (h : cellsFrom lo len cs = true) (hi : i < lo) :
    readCell cs i = unlistedByte := by
  induction cs generalizing lo with
  | nil => rfl
  | cons hd rest ih =>
    obtain ⟨k, u⟩ := hd
    simp only [cellsFrom, Bool.and_eq_true, decide_eq_true_eq] at h
    have hk : k ≠ i := by omega
    simp only [readCell, if_neg hk]
    exact ih (k + 1) h.2 (by omega)

/-- The canonical form from a higher index is one from a lower index. -/
theorem cellsFrom_mono (cs : Cells) (lo lo' len : Nat) (h : cellsFrom lo len cs = true) (hl : lo' ≤ lo) :
    cellsFrom lo' len cs = true := by
  cases cs with
  | nil => rfl
  | cons hd rest =>
    simp only [cellsFrom, Bool.and_eq_true, decide_eq_true_eq] at h ⊢
    exact ⟨⟨⟨by omega, h.1.1.2⟩, h.1.2⟩, h.2⟩

/-- A write inside the bounds keeps the canonical form. -/
theorem writeCell_wf (cs : Cells) (lo len i : Nat) (v : Byte) (h : cellsFrom lo len cs = true)
    (hlo : lo ≤ i) (hi : i < len) : cellsFrom lo len (writeCell cs i v) = true := by
  induction cs generalizing lo with
  | nil =>
    by_cases hv : v = unlistedByte
    · simp [writeCell, hv, cellsFrom]
    · simp [writeCell, hv, cellsFrom, hlo, hi]
  | cons hd rest ih =>
    obtain ⟨k, u⟩ := hd
    simp only [cellsFrom, Bool.and_eq_true, decide_eq_true_eq] at h
    obtain ⟨⟨⟨h1, h2⟩, h3⟩, h4⟩ := h
    unfold writeCell
    split
    · simp only [cellsFrom, Bool.and_eq_true, decide_eq_true_eq]
      exact ⟨⟨⟨h1, h2⟩, h3⟩, ih (k + 1) h4 (by omega)⟩
    · split
      · subst k
        split
        · exact cellsFrom_mono rest (i + 1) lo len h4 (by omega)
        · simp only [cellsFrom, Bool.and_eq_true, decide_eq_true_eq]
          exact ⟨⟨⟨hlo, hi⟩, by assumption⟩, h4⟩
      · split
        · simp only [cellsFrom, Bool.and_eq_true, decide_eq_true_eq]
          exact ⟨⟨⟨h1, h2⟩, h3⟩, h4⟩
        · simp only [cellsFrom, Bool.and_eq_true, decide_eq_true_eq]
          exact ⟨⟨⟨hlo, hi⟩, by assumption⟩, ⟨⟨by omega, h2⟩, h3⟩, h4⟩

/-- A read after a write: the byte written at its index, every other byte as before. -/
theorem readCell_writeCell (cs : Cells) (lo len i j : Nat) (v : Byte) (h : cellsFrom lo len cs = true) :
    readCell (writeCell cs i v) j = if i = j then v else readCell cs j := by
  induction cs generalizing lo with
  | nil =>
    by_cases hv : v = unlistedByte <;> by_cases hij : i = j <;> simp [writeCell, readCell, hv, hij]
  | cons hd rest ih =>
    obtain ⟨k, u⟩ := hd
    simp only [cellsFrom, Bool.and_eq_true, decide_eq_true_eq] at h
    obtain ⟨-, h4⟩ := h
    unfold writeCell
    split
    · simp only [readCell]
      by_cases hkj : k = j
      · simp only [if_pos hkj]; rw [if_neg (by omega)]
      · simp only [if_neg hkj]; exact ih (k + 1) h4
    · split
      · subst k
        by_cases hij : i = j
        · subst j
          split
          · next hv => rw [if_pos rfl, readCell_below rest (i + 1) len i h4 (by omega), hv]
          · simp [readCell]
        · split <;> simp [readCell, hij]
      · next hlt hne =>
        by_cases hij : i = j
        · subst j
          split
          · next hv =>
            simp only [readCell, if_neg hne]
            rw [readCell_below rest (k + 1) len i h4 (by omega), hv, ite_self]
          · simp [readCell]
        · split
          · rfl
          · simp [readCell, hij]

/-- Whether an index of a location is inside its array (R43, R50). -/
def Loc.bounded (flatLen : Nat) : Loc → Prop
  | .header i => i < headerLen
  | .bank _ i => i < bankLen
  | .buf i => i < flatLen

/-- A write to a location inside its array keeps the canonical form of all storage. -/
theorem Memory.set_wf (m : Memory) (n : Nat) (l : Loc) (v : Byte) (h : m.wf n = true) (hl : l.bounded n) :
    (m.set l v).wf n = true := by
  simp only [Memory.wf, cellsWf, Bool.and_eq_true] at h
  obtain ⟨⟨⟨⟨hh, h1⟩, h2⟩, h3⟩, hb⟩ := h
  cases l with
  | header i => simp [Memory.wf, Memory.set, cellsWf, writeCell_wf _ _ _ _ v hh (Nat.zero_le _) hl, h1, h2, h3, hb]
  | bank id i =>
    cases id <;> simp only [Memory.wf, Memory.set, Memory.setBank, Memory.bank, cellsWf, Bool.and_eq_true]
    · exact ⟨⟨⟨⟨hh, writeCell_wf _ _ _ _ v h1 (Nat.zero_le _) hl⟩, h2⟩, h3⟩, hb⟩
    · exact ⟨⟨⟨⟨hh, h1⟩, writeCell_wf _ _ _ _ v h2 (Nat.zero_le _) hl⟩, h3⟩, hb⟩
    · exact ⟨⟨⟨⟨hh, h1⟩, h2⟩, writeCell_wf _ _ _ _ v h3 (Nat.zero_le _) hl⟩, hb⟩
  | buf i => simp [Memory.wf, Memory.set, cellsWf, writeCell_wf _ _ _ _ v hb (Nat.zero_le _) hl, h1, h2, h3, hh]

/-- A read after a write of storage: the byte written at its location, every other location as before (R46). -/
theorem Memory.get_set (m : Memory) (n : Nat) (l l' : Loc) (v : Byte) (h : m.wf n = true) :
    (m.set l v).get l' = if l = l' then v else m.get l' := by
  simp only [Memory.wf, cellsWf, Bool.and_eq_true] at h
  obtain ⟨⟨⟨⟨hh, h1⟩, h2⟩, h3⟩, hb⟩ := h
  cases l with
  | header i =>
    cases l' <;> simp [Memory.set, Memory.get, readCell_writeCell _ _ _ _ _ _ hh, Memory.bank]
  | bank id i =>
    cases l' with
    | header j => cases id <;> rfl
    | buf j => cases id <;> rfl
    | bank id' j =>
      cases id <;> cases id' <;>
        simp [Memory.set, Memory.get, Memory.setBank, Memory.bank, readCell_writeCell _ _ _ _ _ _ h1,
          readCell_writeCell _ _ _ _ _ _ h2, readCell_writeCell _ _ _ _ _ _ h3]
  | buf i =>
    cases l' <;> simp [Memory.set, Memory.get, readCell_writeCell _ _ _ _ _ _ hb, Memory.bank]

/-- The address map reaches only locations inside their arrays. -/
theorem resolve_bounded (c : Config) (sel : BankId) (addr : Word) (l : Loc) (h : resolve c sel addr = some l) :
    l.bounded c.flatLen := by
  unfold resolve at h
  split at h
  · split at h
    · cases h; simp only [Loc.bounded]; omega
    · split at h
      · cases h; simp only [Loc.bounded]; omega
      · cases h
  · split at h
    · cases h; assumption
    · cases h

/-- Two bus addresses never reach one location (R54). -/
theorem resolve_injective (c : Config) (sel : BankId) (x y : Word) (l : Loc)
    (hx : resolve c sel x = some l) (hy : resolve c sel y = some l) : x = y := by
  have key : x.toNat = y.toNat := by
    unfold resolve at hx hy
    split at hx
    · next hk =>
      rw [hk] at hy
      simp only at hy
      split at hx <;> split at hy <;> (try split at hx) <;> (try split at hy) <;>
        (try cases hx) <;> simp_all <;> omega
    · next hk =>
      rw [hk] at hy
      simp only at hy
      split at hx <;> split at hy <;> (try cases hx) <;> simp_all
  exact BitVec.eq_of_toNat_eq key

/-- Everything a bus write can do: it stores at the location its address reaches, or fails there. -/
theorem State.write8_eq (s : State) (addr : Word) (v : Byte) :
    (s.locate addr = none ∧ s.write8 addr v = none) ∨
    (∃ l, s.locate addr = some l ∧ s.write8 addr v = some (s.setLoc l v)) := by
  unfold State.write8
  cases h : s.locate addr <;> simp

/-- A successful bus write is read back and leaves every other address alone (R54). -/
theorem State.read8_write8 (s t : State) (addr x : Word) (v : Byte) (hw : s.mem.wf s.cfg.flatLen = true)
    (h : s.write8 addr v = some t) : t.read8 x = if x = addr then some v else s.read8 x := by
  obtain ⟨-, h0⟩ | ⟨l, hl, h1⟩ := s.write8_eq addr v
  · rw [h] at h0; cases h0
  · rw [h] at h1; cases h1
    simp only [State.read8, State.setLoc_locate, State.setLoc_mem]
    by_cases hx : x = addr
    · subst hx; simp [hl, Memory.get_set _ _ _ _ _ hw]
    · rw [if_neg hx]
      cases hlx : s.locate x with
      | none => rfl
      | some l' =>
        have hne : l ≠ l' := by
          rintro rfl
          exact hx (resolve_injective s.cfg s.sel x addr l hlx hl)
        simp [Memory.get_set _ _ _ _ _ hw, hne]

/-- A successful bus write keeps the invariant. -/
theorem State.write8_inv (s t : State) (addr : Word) (v : Byte) (hi : s.Inv) (h : s.write8 addr v = some t) :
    t.Inv := by
  obtain ⟨-, h0⟩ | ⟨l, hl, h1⟩ := s.write8_eq addr v
  · rw [h] at h0; cases h0
  · rw [h] at h1; cases h1
    exact ⟨hi.1, Memory.set_wf _ _ _ _ hi.2.1 (resolve_bounded _ _ _ _ hl), hi.2.2⟩

/-- An 8-bit register write keeps the invariant. -/
theorem State.set8_inv (s : State) (r : Reg8) (v : Byte) (hi : s.Inv) : (s.set8 r v).Inv :=
  ⟨s.set8_flagsLow r v hi.1, by simpa using hi.2.1, by simpa using hi.2.2⟩

/-- A 16-bit register write keeps the invariant. -/
theorem State.set16_inv (s : State) (p : Reg16) (w : Word) (hi : s.Inv) : (s.set16 p w).Inv :=
  ⟨s.set16_flagsLow p w hi.1, by simpa using hi.2.1, by simpa using hi.2.2⟩

/-- A write of a location inside its array keeps the invariant. -/
theorem State.setLoc_inv (s : State) (l : Loc) (v : Byte) (hi : s.Inv) (hl : l.bounded s.cfg.flatLen) :
    (s.setLoc l v).Inv :=
  ⟨hi.1, Memory.set_wf _ _ _ _ hi.2.1 hl, hi.2.2⟩

/-- Where storage, selector and parameters are the same, every read is the same. -/
theorem memFrame_of_eq {s t : State} (hm : t.mem = s.mem) (hc : t.cfg = s.cfg) (hs : t.sel = s.sel) :
    MemFrame s t :=
  ⟨by simp [hm], fun addr => by simp only [State.read8, State.locate, hm, hc, hs]⟩

/-- An 8-bit write changes no other register. -/
theorem State.set8_regsFrame (s : State) (r : Reg8) (v : Byte) : RegsFrame [r] s (s.set8 r v) :=
  ⟨fun r' h => by rw [State.get8_set8, if_neg (by simpa using h)], by simp, by simp, by simp⟩

/-- A store at a located address changes that byte and no other. -/
theorem State.setLoc_storeFrame (s : State) (addr : Word) (l : Loc) (v : Byte) (hl : s.locate addr = some l)
    (hi : s.Inv) : StoreFrame addr l v s (s.setLoc l v) := by
  have hw : s.write8 addr v = some (s.setLoc l v) := by simp [State.write8, hl]
  have hr := fun x => State.read8_write8 s _ addr x v hi.2.1 hw
  refine ⟨by rw [hr, if_pos rfl], fun x hx => by rw [hr, if_neg hx], fun k hk => ?_⟩
  rw [State.setLoc_mem, Memory.get_set _ _ _ _ _ hi.2.1, if_neg (Ne.symm hk)]

/-- The storage of the reset state is in canonical form. -/
theorem Memory.zero_wf (n : Nat) : Memory.zero.wf n = true := rfl

end Sys2Proof.Machine
end

