-- ==== Sys2Proof/Laws/Operands.lean ====
section
/-! SUPPORT. What a fetch can do, once (30_encoding R71, R72): it answers the bytes at PC and moves PC past them, or
it faults at the first byte that is out of range; it changes nothing but PC. -/

namespace Sys2Proof.Machine

/-- `fetch_byte` where the byte is readable. -/
theorem fetchByte_some (k : AccessKind) (s : State) (v : Byte) (h : s.read8 s.pc = some v) :
    fetchByte k s = .ok (v, s.advance 1) := by
  simp only [fetchByte, h]; rfl

/-- `fetch_byte` where the byte is out of range. -/
theorem fetchByte_none (k : AccessKind) (s : State) (h : s.read8 s.pc = none) :
    fetchByte k s = .error (.addressOutOfRange s.pc k) := by
  simp only [fetchByte, h]; rfl

/-- A `fetch_byte` that answers read the byte at PC and moved PC by one. -/
theorem fetchByte_ok {k : AccessKind} {s t : State} {v : Byte} (h : fetchByte k s = .ok (v, t)) :
    s.read8 s.pc = some v ∧ t = s.advance 1 := by
  cases hr : s.read8 s.pc with
  | none => rw [fetchByte_none k s hr] at h; cases h
  | some u => rw [fetchByte_some k s u hr] at h; cases h; exact ⟨rfl, rfl⟩

/-- `fetch_word` where both bytes are readable. -/
theorem fetchWord_some (s : State) (lo hi : Byte) (h0 : s.read8 s.pc = some lo)
    (h1 : s.read8 (s.pc + 1) = some hi) : fetchWord s = .ok (mkWord hi lo, s.advance 2) := by
  simp only [fetchWord, h0, h1]; rfl

/-- A `fetch_word` that answers read the two bytes at PC, low first, and moved PC by two. -/
theorem fetchWord_ok {s t : State} {w : Word} (h : fetchWord s = .ok (w, t)) :
    ∃ lo hi, s.read8 s.pc = some lo ∧ s.read8 (s.pc + 1) = some hi ∧ w = mkWord hi lo ∧ t = s.advance 2 := by
  unfold fetchWord at h
  split at h
  · cases h
  · next lo h0 =>
    split at h
    · cases h
    · next hi h1 => cases h; exact ⟨lo, hi, h0, h1, rfl, rfl⟩

/-- A `fetch_byte` that fails, fails at PC. -/
theorem fetchByte_error {k : AccessKind} {s : State} {f : Fault} (h : fetchByte k s = .error f) :
    s.read8 s.pc = none ∧ f = .addressOutOfRange s.pc k := by
  cases hr : s.read8 s.pc with
  | none => rw [fetchByte_none k s hr] at h; cases h; exact ⟨rfl, rfl⟩
  | some u => rw [fetchByte_some k s u hr] at h; cases h

/-- A `fetch_word` that fails, fails at the first byte that is out of range. -/
theorem fetchWord_error {s : State} {f : Fault} (h : fetchWord s = .error f) :
    (s.read8 s.pc = none ∧ f = .addressOutOfRange s.pc .fetchOperand) ∨
    ((s.read8 s.pc).isSome = true ∧ s.read8 (s.pc + 1) = none ∧
      f = .addressOutOfRange (s.pc + 1) .fetchOperand) := by
  unfold fetchWord at h
  split at h
  · next h0 => cases h; exact .inl ⟨h0, rfl⟩
  · next lo h0 =>
    split at h
    · next h1 => cases h; exact .inr ⟨by simp [h0], h1, rfl⟩
    · cases h

/-- `fetch_word` where the low byte is out of range. -/
theorem fetchWord_none_low (s : State) (h : s.read8 s.pc = none) :
    fetchWord s = .error (.addressOutOfRange s.pc .fetchOperand) := by
  simp only [fetchWord, h]; rfl

/-- `fetch_word` where only the high byte is out of range. -/
theorem fetchWord_none_high (s : State) (lo : Byte) (h0 : s.read8 s.pc = some lo)
    (h1 : s.read8 (s.pc + 1) = none) :
    fetchWord s = .error (.addressOutOfRange (s.pc + 1) .fetchOperand) := by
  simp only [fetchWord, h0, h1]; rfl

@[simp] theorem State.advance_pc (s : State) (n : Nat) : (s.advance n).pc = s.pc + BitVec.ofNat 16 n := rfl
@[simp] theorem State.advance_cfg (s : State) (n : Nat) : (s.advance n).cfg = s.cfg := rfl
@[simp] theorem State.advance_mem (s : State) (n : Nat) : (s.advance n).mem = s.mem := rfl
@[simp] theorem State.advance_read8 (s : State) (n : Nat) (x : Word) : (s.advance n).read8 x = s.read8 x := rfl

/-- Moving PC twice is moving it once by the sum. -/
theorem State.advance_advance (s : State) (m n : Nat) : (s.advance m).advance n = s.advance (m + n) := by
  simp [State.advance, BitVec.add_assoc, BitVec.ofNat_add]

/-- An operand fetch changes nothing but PC, which moves past the operand bytes of the format. -/
theorem fetchOperands_advance {f : Form} {s t : State} {i : Instr} (h : fetchOperands f s = .ok (i, t)) :
    t = s.advance f.operandBytes := by
  cases f with
  | op j => simp only [fetchOperands] at h; cases h; simp [State.advance, Form.operandBytes]
  | opD8 k =>
    simp only [fetchOperands] at h
    split at h
    · next v u hv => obtain ⟨-, rfl⟩ := fetchByte_ok hv; cases h; rfl
    · cases h
  | opD16 k =>
    simp only [fetchOperands] at h
    split at h
    · next w u hw => obtain ⟨lo, hi, -, -, -, rfl⟩ := fetchWord_ok hw; cases h; rfl
    · cases h

/-- An operand fetch that fails reports an operand fetch. -/
theorem fetchOperands_error {f : Form} {s : State} {e : Fault} (h : fetchOperands f s = .error e) :
    ∃ addr, e = .addressOutOfRange addr .fetchOperand := by
  cases f with
  | op j => cases h
  | opD8 k =>
    simp only [fetchOperands] at h
    split at h
    · cases h
    · next g hg => cases h; exact ⟨_, (fetchByte_error hg).2⟩
  | opD16 k =>
    simp only [fetchOperands] at h
    split at h
    · cases h
    · next g hg =>
      cases h
      rcases fetchWord_error hg with hg | hg
      · exact ⟨_, hg.2⟩
      · exact ⟨_, hg.2.2⟩

/-- A fetch of a whole instruction changes nothing but PC. -/
theorem fetchInstr_advance {s t : State} {i : Instr} (h : fetchInstr s = .ok (i, t)) :
    ∃ b, s.read8 s.pc = some b ∧ t = s.advance (1 + (formOf s.cfg b).operandBytes) := by
  unfold fetchInstr at h
  split at h
  · next b u hb =>
    obtain ⟨hr, rfl⟩ := fetchByte_ok hb
    exact ⟨b, hr, by rw [fetchOperands_advance h, State.advance_advance]⟩
  · cases h

end Sys2Proof.Machine
end

