-- ==== Sys2Proof/Laws/Exec.lean ====
section
/-! SUPPORT. Everything the store and the instructions can do, once; later proofs cite these inversion lemmas. -/

namespace Sys2Proof.Machine

/-- A store answers the state with its byte written where its address is in range. -/
theorem State.storeByte_some (s : State) (addr : Word) (v : Byte) (l : Loc) (h : s.locate addr = some l) :
    s.storeByte addr v = .next (s.setLoc l v) := by
  simp [State.storeByte, State.write8, h]

/-- A store faults where its address is out of range. -/
theorem State.storeByte_none (s : State) (addr : Word) (v : Byte) (h : s.locate addr = none) :
    s.storeByte addr v = .fault (.addressOutOfRange addr .store) := by
  simp [State.storeByte, State.write8, h, outOfRange]

/-- A store that answers a next state wrote its byte there. -/
theorem State.storeByte_next {s t : State} {addr : Word} {v : Byte} (h : s.storeByte addr v = .next t) :
    ∃ l, s.locate addr = some l ∧ t = s.setLoc l v := by
  cases hl : s.locate addr with
  | none => rw [s.storeByte_none addr v hl] at h; cases h
  | some l => rw [s.storeByte_some addr v l hl] at h; cases h; exact ⟨l, rfl, rfl⟩

/-- Everything an instruction that answers a next state did: nothing, one 8-bit register write to a register other than
FLAGS and E, one 16-bit write to BC, HL or PC, or one store. -/
theorem exec_next {i : Instr} {s t : State} (h : exec i s = .next t) :
    t = s ∨ (∃ r v, r ≠ .flags ∧ r ≠ .e ∧ t = s.set8 r v) ∨
    (∃ p w, (p = .bc ∨ p = .hl ∨ p = .pc) ∧ t = s.set16 p w) ∨
    (∃ l v addr, s.locate addr = some l ∧ t = s.setLoc l v) := by
  cases i with
  | noOp => cases h; exact .inl rfl
  | noOpMiss n => cases h; exact .inl rfl
  | loadImmediate16BC w => cases h; exact .inr (.inr (.inl ⟨.bc, w, .inl rfl, rfl⟩))
  | storeAIndirectBC =>
    obtain ⟨l, hl, rfl⟩ := State.storeByte_next h
    exact .inr (.inr (.inr ⟨l, _, _, hl, rfl⟩))
  | increment16BC => cases h; exact .inr (.inr (.inl ⟨.bc, _, .inl rfl, rfl⟩))
  | increment8B => cases h; exact .inr (.inl ⟨.b, _, by decide, by decide, rfl⟩)
  | decrement8B => cases h; exact .inr (.inl ⟨.b, _, by decide, by decide, rfl⟩)
  | loadImmediate8B v => cases h; exact .inr (.inl ⟨.b, v, by decide, by decide, rfl⟩)
  | loadImmediate8C v => cases h; exact .inr (.inl ⟨.c, v, by decide, by decide, rfl⟩)
  | loadImmediate8D v => cases h; exact .inr (.inl ⟨.d, v, by decide, by decide, rfl⟩)
  | loadImmediate8H v => cases h; exact .inr (.inl ⟨.h, v, by decide, by decide, rfl⟩)
  | loadImmediate8L v => cases h; exact .inr (.inl ⟨.l, v, by decide, by decide, rfl⟩)
  | loadImmediate8A v => cases h; exact .inr (.inl ⟨.a, v, by decide, by decide, rfl⟩)
  | absoluteJump w => cases h; exact .inr (.inr (.inl ⟨.pc, w, .inr (.inr rfl), rfl⟩))
  | loadImmediate8HLind v =>
    simp only [exec, execLoadImmediate8HLind] at h
    split at h
    · cases h; exact .inl rfl
    · cases h; exact .inr (.inr (.inl ⟨.hl, _, .inr (.inl rfl), rfl⟩))
    · obtain ⟨l, hl, rfl⟩ := State.storeByte_next h
      exact .inr (.inr (.inr ⟨l, _, _, hl, rfl⟩))

/-- An instruction answers a next state or a store fault, and nothing else. -/
theorem exec_next_or_fault (i : Instr) (s : State) :
    (∃ t, exec i s = .next t) ∨ ∃ addr, exec i s = .fault (.addressOutOfRange addr .store) := by
  have store : ∀ addr v, (∃ t, s.storeByte addr v = .next t) ∨
      ∃ x, s.storeByte addr v = .fault (.addressOutOfRange x .store) := by
    intro addr v
    cases h : s.locate addr with
    | none => exact .inr ⟨_, s.storeByte_none _ _ h⟩
    | some l => exact .inl ⟨_, s.storeByte_some _ _ _ h⟩
  cases i with
  | storeAIndirectBC => exact store _ _
  | loadImmediate8HLind v =>
    simp only [exec, execLoadImmediate8HLind]
    cases s.cfg.hlIndMode
    · exact .inl ⟨_, rfl⟩
    · exact .inl ⟨_, rfl⟩
    · exact store _ _
  | noOp => exact .inl ⟨_, rfl⟩
  | noOpMiss _ => exact .inl ⟨_, rfl⟩
  | loadImmediate16BC _ => exact .inl ⟨_, rfl⟩
  | increment16BC => exact .inl ⟨_, rfl⟩
  | increment8B => exact .inl ⟨_, rfl⟩
  | decrement8B => exact .inl ⟨_, rfl⟩
  | loadImmediate8B _ => exact .inl ⟨_, rfl⟩
  | loadImmediate8C _ => exact .inl ⟨_, rfl⟩
  | loadImmediate8D _ => exact .inl ⟨_, rfl⟩
  | loadImmediate8H _ => exact .inl ⟨_, rfl⟩
  | loadImmediate8L _ => exact .inl ⟨_, rfl⟩
  | loadImmediate8A _ => exact .inl ⟨_, rfl⟩
  | absoluteJump _ => exact .inl ⟨_, rfl⟩

/-- A step that answers a next state fetched an instruction and ran it past its bytes. -/
theorem step_next {s t : State} (h : step s = .next t) :
    ∃ i u, fetchInstr s = .ok (i, u) ∧ exec i u = .next t := by
  unfold step at h
  split at h
  · next i u hf => exact ⟨i, u, hf, h⟩
  · cases h

end Sys2Proof.Machine
end

