-- ==== Sys2Proof/Laws/PerInstr.lean ====
section
/-! SUPPORT. One family of facts about every instruction as syntax: its encoding is as long as its
format says (30_encoding R74). -/

namespace Sys2Proof.Laws.EncodeLength

/-- The encoding of `i` is as long as the format of its tag. -/
def Statement (i : Instr) : Prop := ∀ c : Config, (encode c i).length = i.tag.length

theorem noOp : Statement .noOp := fun _ => rfl
theorem loadImmediate16BC (w : Word) : Statement (.loadImmediate16BC w) := fun _ => rfl
theorem storeAIndirectBC : Statement .storeAIndirectBC := fun _ => rfl
theorem increment16BC : Statement .increment16BC := fun _ => rfl
theorem increment8B : Statement .increment8B := fun _ => rfl
theorem decrement8B : Statement .decrement8B := fun _ => rfl
theorem loadImmediate8B (v : Byte) : Statement (.loadImmediate8B v) := fun _ => rfl
theorem loadImmediate8C (v : Byte) : Statement (.loadImmediate8C v) := fun _ => rfl
theorem loadImmediate8D (v : Byte) : Statement (.loadImmediate8D v) := fun _ => rfl
theorem loadImmediate8H (v : Byte) : Statement (.loadImmediate8H v) := fun _ => rfl
theorem loadImmediate8L (v : Byte) : Statement (.loadImmediate8L v) := fun _ => rfl
theorem loadImmediate8A (v : Byte) : Statement (.loadImmediate8A v) := fun _ => rfl
theorem absoluteJump (w : Word) : Statement (.absoluteJump w) := fun _ => rfl
theorem loadImmediate8HLind (v : Byte) : Statement (.loadImmediate8HLind v) := fun _ => rfl
theorem noOpMiss (n : Byte) : Statement (.noOpMiss n) := fun _ => rfl

end Sys2Proof.Laws.EncodeLength
end

