-- ==== Sys2Proof/Tests/Slice0.lean ====
section
/-! SUPPORT. The model's own tests: each one step on a small state, expected results from spec/95_test_vectors.md or
from the spec's encodings; the refusals of well-formedness; and a witness for every statement that has hypotheses. -/

namespace Sys2Proof.Tests

open Sys2Proof.Machine

/-- One field of a next state. -/
def after {α : Type} (o : Host.Outcome State Fault Refusal) (f : State → α) : Option α :=
  match o with
  | .next t => some (f t)
  | .fault _ => none
  | .refused _ => none

/-- The fault of an outcome. -/
def faultOf (o : Host.Outcome State Fault Refusal) : Option Fault :=
  match o with
  | .next _ => none
  | .fault f => some f
  | .refused _ => none

/-- The default banked machine with bytes placed from address 0 on, PC = 0. -/
def banked (bs : List Byte) : State := State.reset.placeBytes 0 bs

/-- A flat machine of `n` bytes with bytes placed from `pc` on. -/
def flat (n : Nat) (pc : Word) (bs : List Byte) : State :=
  State.placeBytes { State.construct { Config.default with busKind := .flat, flatLen := n } with pc := pc } pc bs

/-- The default banked machine in a mode of the optional form. -/
def hlInd (m : HLindMode) (bs : List Byte) : State :=
  State.placeBytes (State.construct { Config.default with hlIndMode := m }) 0 bs

/-! ### Well-formedness: an ill-formed term for each check -/

theorem test_wf_default : Config.default.WellFormed := by decide

/-- R61's alternative map is well formed. -/
theorem test_wf_console_map : { Config.default with headerBase := 0x0100, windowBase := 0x4000 }.WellFormed := by decide

theorem test_wf_refuses_equal_bytes : ¬ { defaultOpcodes with incB := 0x05 }.WellFormed := by decide
theorem test_wf_refuses_optional_byte_clash : ¬ { defaultOpcodes with ldHLindD8 := 0x00 }.WellFormed := by decide
theorem test_wf_refuses_ff : ¬ { defaultOpcodes with nop := 0xFF }.WellFormed := by decide
theorem test_wf_refuses_other_jump : ¬ { defaultOpcodes with jp := 0xC2 }.WellFormed := by decide
theorem test_wf_refuses_header_past_end : ¬ { Config.default with headerBase := 65457 }.MapWellFormed := by decide
theorem test_wf_refuses_window_past_end : ¬ { Config.default with windowBase := 49153 }.MapWellFormed := by decide
theorem test_wf_refuses_overlap : ¬ { Config.default with windowBase := 79 }.MapWellFormed := by decide
theorem test_wf_refuses_long_buffer : ¬ { Config.default with flatLen := 65537 }.MapWellFormed := by decide
theorem test_wf_refuses_mapped_miss : Instr.wellFormed Config.default (.noOpMiss 0x04) = false := by decide
theorem test_wf_refuses_absent_form : Instr.wellFormed Config.default (.loadImmediate8HLind 0x7F) = false := by decide
theorem test_wf_refuses_present_form_as_miss :
    Instr.wellFormed { Config.default with hlIndMode := .overwritePair } (.noOpMiss 0x36) = false := by decide

/-! ### Decoding: one word of every instruction, from 30_encoding R74 and R77 -/

theorem test_decode_noOp : decode Config.default [0b00000000] = .ok (.noOp, []) := rfl
theorem test_decode_loadImmediate16BC :
    decode Config.default [0b00000001, 0x34, 0x12] = .ok (.loadImmediate16BC 0x1234, []) := rfl
theorem test_decode_storeAIndirectBC : decode Config.default [0b00000010] = .ok (.storeAIndirectBC, []) := rfl
theorem test_decode_increment16BC : decode Config.default [0b00000011] = .ok (.increment16BC, []) := rfl
theorem test_decode_increment8B : decode Config.default [0b00000100] = .ok (.increment8B, []) := rfl
theorem test_decode_decrement8B : decode Config.default [0b00000101] = .ok (.decrement8B, []) := rfl
theorem test_decode_loadImmediate8B : decode Config.default [0b00000110, 0xFF] = .ok (.loadImmediate8B 0xFF, []) := rfl
theorem test_decode_loadImmediate8C : decode Config.default [0b00001110, 0x77] = .ok (.loadImmediate8C 0x77, []) := rfl
theorem test_decode_loadImmediate8D : decode Config.default [0b00010110, 0x12] = .ok (.loadImmediate8D 0x12, []) := rfl
theorem test_decode_loadImmediate8H : decode Config.default [0b00100110, 0x34] = .ok (.loadImmediate8H 0x34, []) := rfl
theorem test_decode_loadImmediate8L : decode Config.default [0b00101110, 0x56] = .ok (.loadImmediate8L 0x56, []) := rfl
theorem test_decode_loadImmediate8A : decode Config.default [0b00111110, 0x5A] = .ok (.loadImmediate8A 0x5A, []) := rfl
theorem test_decode_absoluteJump :
    decode Config.default [0b11000011, 0x00, 0x80] = .ok (.absoluteJump 0x8000, []) := rfl
theorem test_decode_loadImmediate8HLind :
    decode { Config.default with hlIndMode := .memoryWrite } [0b00110110, 0x7F] = .ok (.loadImmediate8HLind 0x7F, []) := rfl
/-- I4: the byte after a miss is not consumed. -/
theorem test_decode_noOpMiss : decode Config.default [0x1E, 0x04] = .ok (.noOpMiss 0x1E, [0x04]) := rfl
/-- E8: the unmapped bytes the spec lists. -/
theorem test_decode_misses :
    [0x1E, 0x36, 0x0C, 0x0D, 0x3C, 0x76, 0xC2, 0xCB, 0xFF, 0x07, 0x08, 0x0A].all (isMiss Config.default) = true := by
  decide
theorem test_decode_no_bytes : decode Config.default [] = .error .noOpcodeByte := rfl
theorem test_decode_missing_operand : decode Config.default [0x01, 0x34] = .error (.missingOperand 0x01) := rfl
theorem test_decodeTableWord_jump : decodeTableWord 24 0x8000C3 = some (.absoluteJump 0x8000) := by decide
theorem test_decodeTableWord_short : decodeTableWord 8 0x3E = some (.loadImmediate8A 0x00) := by decide
theorem test_withFetchWord_jump : after (step (State.reset.withFetchWord 24 0x8000C3)) State.pc = some 0x8000 := by decide

/-! ### Instructions (95_test_vectors 2.4) -/

/-- I1 -/
theorem test_noOp : after (step (flat 65536 0x0100 [0x00])) State.pc = some 0x0101 := by decide
/-- I2 -/
theorem test_noOp_wraps : after (step (flat 65536 0xFFFF [0x00])) State.pc = some 0x0000 := by decide
/-- I3 -/
theorem test_noOpMiss : (after (step (flat 65536 0x0200 [0xFF])) State.pc = some 0x0201) ∧
    missOutput (flat 65536 0x0200 [0xFF]) = true := by decide
/-- I5 -/
theorem test_loadImmediate16BC :
    after (step (flat 65536 0 [0x01, 0x34, 0x12])) (fun t => (t.b, t.c, t.pc)) = some (0x12, 0x34, 0x0003) := by decide
/-- I7 -/
theorem test_loadImmediate16BC_wraps :
    after (step (flat 65536 0xFFFE [0x01, 0xCD, 0xAB])) (fun t => (t.b, t.c, t.pc)) = some (0xAB, 0xCD, 0x0001) := by
  decide
/-- I9 -/
theorem test_storeAIndirectBC :
    after (step { flat 65536 0x0010 [0x02] with a := 0x5A, b := 0xC0, c := 0x00 }) (fun t => (t.read8 0xC000, t.pc)) =
      some (some 0x5A, 0x0011) := by decide
/-- I12 -/
theorem test_storeAIndirectBC_bank :
    after (step { banked [0x02] with a := 0x77, b := 0x00, c := 0x50, sel := .bank2 })
      (fun t => (t.mem.bank1, t.mem.bank2, t.mem.bank3)) = some ([], [(0, 0x77)], []) := by decide
/-- I14 -/
theorem test_increment16BC_wraps :
    after (step { flat 65536 0 [0x03] with b := 0xFF, c := 0xFF }) (fun t => (t.b, t.c, t.flags)) = some (0, 0, 0) := by
  decide
/-- I15 -/
theorem test_increment16BC_carries :
    after (step { flat 65536 0 [0x03] with b := 0x12, c := 0xFF }) (fun t => (t.b, t.c)) = some (0x13, 0x00) := by decide
/-- I16 -/
theorem test_increment8B :
    after (step { flat 65536 0 [0x04] with b := 0xFF, c := 0x77 }) (fun t => (t.b, t.c, t.flags)) =
      some (0x00, 0x77, 0x00) := by decide
/-- I17 -/
theorem test_increment8B_flags :
    after (step { flat 65536 0 [0x04] with b := 0x0F, flags := 0xF0 }) (fun t => (t.b, t.flags)) = some (0x10, 0xF0) := by
  decide
/-- I18 -/
theorem test_decrement8B :
    after (step { flat 65536 0 [0x05] with c := 0x77 }) (fun t => (t.b, t.c, t.flags)) = some (0xFF, 0x77, 0x00) := by
  decide
/-- I19 -/
theorem test_decrement8B_zero :
    after (step { flat 65536 0 [0x05] with b := 0x01 }) (fun t => (t.b, t.flags)) = some (0x00, 0x00) := by decide
/-- I21 -/
theorem test_loadImmediate8A :
    after (step { flat 65536 0 [0x3E, 0x00] with a := 0x5A, flags := 0xF0 }) (fun t => t.get16 .af) = some 0x00F0 := by
  decide
/-- I27 -/
theorem test_loadImmediate8A_wraps :
    after (step (flat 65536 0xFFFF [0x3E, 0x99])) (fun t => (t.a, t.pc)) = some (0x99, 0x0001) := by decide
/-- I22 -/
theorem test_loadImmediate8B :
    after (step { flat 65536 0 [0x06, 0xFF] with c := 0x34 }) (fun t => t.get16 .bc) = some 0xFF34 := by decide
/-- I23 -/
theorem test_loadImmediate8C :
    after (step { flat 65536 0 [0x0E, 0x77] with b := 0x12 }) (fun t => t.get16 .bc) = some 0x1277 := by decide
/-- I24 -/
theorem test_loadImmediate8D : after (step (banked [0x16, 0x12])) (fun t => t.get16 .de) = some 0x1200 := by decide
/-- I25 -/
theorem test_loadImmediate8H :
    after (step (banked [0x26, 0x34])) (fun t => (t.get16 .hl, t.flags)) = some (0x3400, 0x00) := by decide
/-- I26 -/
theorem test_loadImmediate8L :
    after (step { banked [0x2E, 0x56] with h := 0x34 }) (fun t => t.get16 .hl) = some 0x3456 := by decide
/-- I30 -/
theorem test_loadImmediate8HLind_overwrite :
    after (step { hlInd .overwritePair [0x36, 0x7F] with h := 0xC0 }) (fun t => (t.h, t.l, t.pc)) =
      some (0x00, 0x7F, 0x0002) := by decide
/-- I31, at a mapped address of the banked bus. -/
theorem test_loadImmediate8HLind_store :
    after (step { hlInd .memoryWrite [0x36, 0x7F] with h := 0x01 }) (fun t => (t.read8 0x0100, t.h, t.l, t.pc)) =
      some (some 0x7F, 0x01, 0x00, 0x0002) := by decide
/-- I32 -/
theorem test_absoluteJump : after (step (flat 65536 0x0150 [0xC3, 0x00, 0x80])) State.pc = some 0x8000 := by decide
/-- I34 -/
theorem test_absoluteJump_wraps : after (step (flat 65536 0xFFFF [0xC3, 0x34, 0x12])) State.pc = some 0x1234 := by decide

/-! ### Faults: each cause of 60_exceptions R131 -/

/-- I8 -/
theorem test_fault_operand_high :
    faultOf (step (flat 2 0 [0x01, 0x34])) = some (.addressOutOfRange 0x0002 .fetchOperand) := by decide
/-- I28 -/
theorem test_fault_operand : faultOf (step (flat 1 0 [0x06])) = some (.addressOutOfRange 0x0001 .fetchOperand) := by
  decide
/-- I11 -/
theorem test_fault_store :
    faultOf (step { banked [0x02] with a := 0x77, b := 0x80 }) = some (.addressOutOfRange 0x8000 .store) := by decide
/-- I36 -/
theorem test_fault_opcode : faultOf (step (flat 0x100 0x100 [])) = some (.addressOutOfRange 0x0100 .fetchOpcode) := by
  decide
theorem test_fault_hlInd_store :
    faultOf (step { hlInd .memoryWrite [0x36, 0x7F] with h := 0xC0 }) = some (.addressOutOfRange 0xC000 .store) := by decide

/-! ### Registers, memory and the host (95_test_vectors 2.1, 2.2) -/

/-- V2, V4 -/
theorem test_flags_masked : (State.reset.set16 .af 0xFFFF).get16 .af = 0xFFF0 ∧
    (State.reset.set8 .flags 0xAB).flags = 0xA0 := by decide
/-- V16 to V19 -/
theorem test_flags_corners : (State.reset.dec8 .flags).flags = 0xF0 ∧
    ((State.reset.set16 .af 0x1230).inc16 .af).get16 .af = 0x1230 ∧
    ((State.reset.set16 .af 0x1230).dec16 .af).get16 .af = 0x1220 ∧
    ((State.reset.set16 .af 0x1200).dec16 .af).get16 .af = 0x11F0 := by decide
/-- V8 to V11 -/
theorem test_inc_dec_16 : (State.reset.dec16 .de).get16 .de = 0xFFFF ∧
    ((State.reset.set16 .hl 0x00FF).inc16 .hl).get16 .hl = 0x0100 ∧
    ((State.reset.set16 .sp 0x0100).dec16 .sp).sp = 0x00FF ∧ ((State.reset.set16 .sp 0xFFFF).inc16 .sp).sp = 0 := by decide
/-- M1 to M6: the boundaries of the default map. -/
theorem test_map_boundaries :
    State.reset.locate 0x0000 = some (.header 0) ∧ State.reset.locate 0x004F = some (.header 79) ∧
    State.reset.locate 0x0050 = some (.bank .bank1 0) ∧ State.reset.locate 0x404F = some (.bank .bank1 16383) ∧
    State.reset.locate 0x4050 = none ∧ State.reset.locate 0xFFFF = none := by decide
/-- The flat map of 2.2. -/
theorem test_map_flat : (flat 0x100 0 []).locate 0x00FF = some (.buf 255) ∧ (flat 0x100 0 []).locate 0x0100 = none := by
  decide
/-- M8 -/
theorem test_banks_not_aliased :
    (hostRun [.write8 0x0050 0xAA, .selectBank .bank2] State.reset).read8 0x0050 = some 0x00 := by decide
/-- M9, M10 -/
theorem test_bank_keeps_contents :
    (hostRun [.write8 0x0050 0xAA, .selectBank .bank2, .write8 0x0000 0x11, .selectBank .bank1] State.reset).read8 0x0050 =
      some 0xAA := by decide
/-- Writing the unlisted byte removes the entry. -/
theorem test_write_zero_is_canonical : writeCell [(3, 0x01), (5, 0x02)] 3 0x00 = [(5, 0x02)] := by decide
/-- R63: the boundaries of the persisted layout. -/
theorem test_persisted_layout : persistedLoc 79 = some (.header 79) ∧ persistedLoc 80 = some (.bank .bank1 0) ∧
    persistedLoc 16464 = some (.bank .bank2 0) ∧ persistedLoc 49231 = some (.bank .bank3 16383) ∧
    persistedLoc 49232 = none := by decide
/-- The bounds of 20_memory R47. -/
theorem test_indexed_bounds : (hostApply (.bankRead 16383) State.reset).1 = .byte 0 ∧
    (hostApply (.bankRead 16384) State.reset).1 = .failed (.addressOutOfRange 16384) ∧
    (hostApply (.headerRead 79) State.reset).1 = .byte 0 ∧
    (hostApply (.headerRead 80) State.reset).1 = .failed (.addressOutOfRange 80) := by decide
/-- A flat machine has no bank to select (20_memory R50). -/
theorem test_flat_has_no_banks : (hostApply (.selectBank .bank2) (flat 16 0 [])).1 = .failed .noBankedMemory := by decide
/-- P5 (a): after a jump out of range the host's step fails and leaves the state. -/
theorem test_host_step_fault :
    (hostApply .step { State.reset with pc := 0x8000 }).1 = .failed (.fault (.addressOutOfRange 0x8000 .fetchOpcode)) := by
  decide

/-! ### Witnesses: a concrete state that meets the hypotheses of each statement -/

theorem witness_DecodeOfEncode : Config.default.WellFormed ∧
    (Instr.absoluteJump 0xFFFF).wellFormed Config.default = true ∧ (Instr.noOpMiss 0x36).wellFormed Config.default = true ∧
    (Instr.loadImmediate8HLind 0xFF).wellFormed { Config.default with hlIndMode := .memoryWrite } = true := by decide
theorem witness_EncodeOfDecode : decode Config.default [0xC3, 0xFF, 0xFF, 0x00] = .ok (.absoluteJump 0xFFFF, [0x00]) := rfl
theorem witness_DecodeTagIsTotal : Config.default.WellFormed ∧ (0xC3, Tag.absoluteJump) ∈ activeRows Config.default ∧
    lookupTag Config.default 0x36 = none := by decide
theorem witness_StepRunsDecoded : (banked [0x01, 0x34, 0x12]).BytesAt 0 [0x01, 0x34, 0x12] ∧
    decode (banked [0x01, 0x34, 0x12]).cfg [0x01, 0x34, 0x12] = .ok (.loadImmediate16BC 0x1234, []) :=
  ⟨⟨by decide, by decide, by decide, trivial⟩, rfl⟩
theorem witness_StepIsFetchDecodeExecute : fetchByte .fetchOpcode State.reset = .ok (0x00, State.reset.advance 1) ∧
    fetchByte .fetchOpcode { State.reset with pc := 0x4050 } = .error (.addressOutOfRange 0x4050 .fetchOpcode) :=
  ⟨rfl, rfl⟩
theorem witness_PcAdvancesByLength : (after (step (banked [0x3E, 0x5A])) State.pc).isSome = true ∧
    (banked [0x3E, 0x5A]).read8 0 = some 0x3E ∧ decodeTag Config.default 0x3E = .loadImmediate8A := by decide
theorem witness_EffectTable : fetchWord (banked [0x34, 0x12]) = .ok (0x1234, (banked [0x34, 0x12]).advance 2) ∧
    fetchByte .fetchOperand (banked [0x5A]) = .ok (0x5A, (banked [0x5A]).advance 1) ∧
    State.reset.write8 0x0000 0x00 = some State.reset ∧ { State.reset with b := 0x40, c := 0x50 }.write8 0x4050 0x00 = none :=
  ⟨rfl, rfl, rfl, rfl⟩
theorem witness_StepKeepsInv : (banked [0x02]).Inv ∧ (after (step (banked [0x02])) State.pc).isSome = true := by decide
theorem witness_HostKeepsInv : (hlInd .memoryWrite [0x36, 0x7F]).Inv ∧ (flat 2 0 [0x01, 0x34]).Inv := by decide
theorem witness_ResetHasInv : { Config.default with hlIndMode := .overwritePair, flatLen := 0 }.WellFormed := by decide
theorem witness_NeverWritten : after (exec (.loadImmediate8D 0x12) State.reset) State.d = some 0x12 ∧
    after (step (banked [0x16, 0x12])) State.d = some 0x12 := by decide
theorem witness_NeverRead : (after (step (banked [0x04])) State.b = some 0x01) ∧
    (faultOf (step { State.reset with pc := 0xFFFF })).isSome = true := by decide
theorem witness_HiddenBankIsolated : BankId.bank2 ≠ State.reset.sel ∧ (after (step (banked [0x02])) State.pc).isSome = true ∧
    (faultOf (step { State.reset with pc := 0x4050 })).isSome = true := by decide
theorem witness_NoOpStep : (banked [0x00]).cfg.WellFormed ∧ (banked [0x00]).BytesAt 0 [(banked [0x00]).cfg.opc.nop] :=
  ⟨by decide, by decide, trivial⟩
theorem witness_MissStep : (banked [0xFF]).read8 0 = some 0xFF ∧ 0xFF ∉ (banked [0xFF]).cfg.mappedBytes ∧
    (banked [0x36]).read8 0 = some 0x36 ∧ 0x36 ∉ (banked [0x36]).cfg.mappedBytes ∧ (banked [0xFF]).cfg.WellFormed := by
  decide
theorem witness_LoadImmediate16Step : (banked [0x01, 0xFF, 0x00]).cfg.WellFormed ∧
    (banked [0x01, 0xFF, 0x00]).BytesAt 0 [(banked [0x01, 0xFF, 0x00]).cfg.opc.ldBcD16, 0xFF, 0x00] :=
  ⟨by decide, by decide, by decide, by decide, trivial⟩
/-- The last byte of the window. -/
theorem witness_StoreCompletes : { State.reset with b := 0x40, c := 0x4F }.Inv ∧
    { State.reset with b := 0x40, c := 0x4F }.locate ({ State.reset with b := 0x40, c := 0x4F }.pairAddress .bc) =
      some (.bank .bank1 16383) := by decide
/-- The first address past the window. -/
theorem witness_StoreFaultsOutOfRange :
    { State.reset with b := 0x40, c := 0x50 }.locate ({ State.reset with b := 0x40, c := 0x50 }.pairAddress .bc) = none := by
  decide
theorem witness_StoreStep : (banked [0x02]).cfg.WellFormed ∧ (banked [0x02]).BytesAt 0 [(banked [0x02]).cfg.opc.ldBcIndA] ∧
    (banked [0x02]).locate ((banked [0x02]).get16 .bc) = some (.header 0) :=
  ⟨by decide, ⟨by decide, trivial⟩, by decide⟩
/-- A = 0x04 is the opcode byte of INC B: the case of program P3. -/
theorem witness_StoreSeenByNextFetch : { banked [0x02] with a := 0x04, c := 0x01 }.Inv ∧
    { banked [0x02] with a := 0x04, c := 0x01 }.BytesAt 0 [defaultOpcodes.ldBcIndA] ∧
    { banked [0x02] with a := 0x04, c := 0x01 }.get16 .bc = 0 + 1 ∧
    { banked [0x02] with a := 0x04, c := 0x01 }.InRange (0 + 1) ∧
    { banked [0x02] with a := 0x04, c := 0x01 }.a = defaultOpcodes.incB :=
  ⟨by decide, ⟨by decide, trivial⟩, by decide, by decide, by decide⟩
theorem witness_IncDecStep : State.reset.cfg.WellFormed ∧ (banked [0x03]).BytesAt 0 [defaultOpcodes.incBc] ∧
    (banked [0x04]).BytesAt 0 [defaultOpcodes.incB] ∧ (banked [0x05]).BytesAt 0 [defaultOpcodes.decB] :=
  ⟨by decide, ⟨by decide, trivial⟩, ⟨by decide, trivial⟩, ⟨by decide, trivial⟩⟩
theorem witness_IncThenDecRestores : (banked [0x04, 0x05]).cfg.WellFormed ∧
    (banked [0x04, 0x05]).BytesAt 0 [defaultOpcodes.incB, defaultOpcodes.decB] :=
  ⟨by decide, by decide, by decide, trivial⟩
theorem witness_LoadImmediate8Step : State.reset.cfg.WellFormed ∧
    (banked [0x3E, 0xFF]).BytesAt 0 [defaultOpcodes.ldAD8, 0xFF] ∧ (banked [0x06, 0x00]).BytesAt 0 [defaultOpcodes.ldBD8, 0x00] ∧
    (banked [0x0E, 0xFF]).BytesAt 0 [defaultOpcodes.ldCD8, 0xFF] ∧ (banked [0x16, 0xFF]).BytesAt 0 [defaultOpcodes.ldDD8, 0xFF] ∧
    (banked [0x26, 0xFF]).BytesAt 0 [defaultOpcodes.ldHD8, 0xFF] ∧ (banked [0x2E, 0xFF]).BytesAt 0 [defaultOpcodes.ldLD8, 0xFF] :=
  ⟨by decide, ⟨by decide, by decide, trivial⟩, ⟨by decide, by decide, trivial⟩, ⟨by decide, by decide, trivial⟩,
    ⟨by decide, by decide, trivial⟩, ⟨by decide, by decide, trivial⟩, ⟨by decide, by decide, trivial⟩⟩
theorem witness_LoadImmediate8HLindCompletes : (hlInd .overwritePair []).cfg.hlIndMode = .overwritePair ∧
    (hlInd .memoryWrite []).cfg.hlIndMode = .memoryWrite ∧ (hlInd .memoryWrite []).Inv ∧
    (hlInd .memoryWrite []).locate ((hlInd .memoryWrite []).pairAddress .hl) = some (.header 0) ∧
    { hlInd .memoryWrite [] with h := 0xFF, l := 0xFF }.locate
      ({ hlInd .memoryWrite [] with h := 0xFF, l := 0xFF }.pairAddress .hl) = none ∧
    State.reset.cfg.hlIndMode = .absent := by decide
theorem witness_LoadImmediate8HLindStep : (hlInd .absent [0x36, 0x7F]).cfg.WellFormed ∧
    (hlInd .absent [0x36, 0x7F]).BytesAt 0 [0x36, 0x7F] ∧ (hlInd .overwritePair [0x36, 0x7F]).BytesAt 0 [0x36, 0x7F] ∧
    (hlInd .memoryWrite [0x36, 0x7F]).BytesAt 0 [0x36, 0x7F] ∧
    (hlInd .memoryWrite [0x36, 0x7F]).locate ((hlInd .memoryWrite [0x36, 0x7F]).get16 .hl) = some (.header 0) :=
  ⟨by decide, ⟨by decide, by decide, trivial⟩, ⟨by decide, by decide, trivial⟩, ⟨by decide, by decide, trivial⟩, by decide⟩
theorem witness_JumpStep : (banked [0xC3, 0x50, 0x40]).cfg.WellFormed ∧
    (banked [0xC3, 0x50, 0x40]).BytesAt 0 [0xC3, 0x50, 0x40] ∧ (banked [0xC3, 0x50, 0x40]).locate (mkWord 0x40 0x50) = none :=
  ⟨by decide, ⟨by decide, by decide, by decide, trivial⟩, by decide⟩
/-- I33 at address 0. -/
theorem witness_SelfJumpIsFixedPoint : (banked [0xC3, 0x00, 0x00]).cfg.WellFormed ∧ (banked [0xC3, 0x00, 0x00]).AtSelfJump :=
  ⟨by decide, by decide, by decide, by decide, trivial⟩
theorem witness_FlagsLayout : (State.reset.set8 .flags 0xFF).flagsLow = 0 ∧ (State.reset.set8 .flags 0xFF).flags = 0xF0 := by
  decide
theorem witness_Set16SplitsPairs : Reg16.hl ≠ .af ∧ Reg16.pc ≠ .af ∧ Reg16.sp ≠ .pc := by decide
theorem witness_IncDec8Modular : Reg8.b ≠ .flags ∧ (State.reset.dec8 .b).b = 0xFF := by decide
theorem witness_IncDec16Modular : Reg16.pc ≠ .af ∧ (State.reset.dec16 .pc).pc = 0xFFFF := by decide
theorem witness_FlagsIncDecCorners : (State.reset.set8 .flags 0x50).flagsLow = 0 ∧ State.reset.flagsLow = 0 := by decide
/-- The last byte of the window, and the last byte of a flat buffer. -/
theorem witness_BusReadAfterWrite : State.reset.Inv ∧ (State.reset.write8 0x404F 0xAA).isSome = true ∧
    (flat 0x100 0 []).Inv ∧ ((flat 0x100 0 []).write8 0x00FF 0xAA).isSome = true := by decide
/-- The last address in range and the first out of range of each bus. -/
theorem witness_AddressMap : State.reset.cfg.busKind = .banked ∧ State.reset.InRange 0x404F ∧ ¬ State.reset.InRange 0x4050 ∧
    (flat 0x100 0 []).cfg.busKind = .flat ∧ (flat 0x100 0 []).InRange 0x00FF ∧ ¬ (flat 0x100 0 []).InRange 0x0100 ∧
    (0x00FF : Word).toNat < (flat 0x100 0 []).cfg.flatLen ∧ (flat 0x100 0xFF [0x5A]).read8 0x00FF = some 0x5A := by decide
/-- The last index of the window and of the header. -/
theorem witness_WindowShowsSelectedBank : State.reset.cfg.WellFormed ∧ State.reset.cfg.busKind = .banked ∧
    State.reset.locate (BitVec.ofNat 16 (0x0050 + 16383)) = some (.bank .bank1 16383) ∧
    State.reset.locate (BitVec.ofNat 16 79) = some (.header 79) ∧
    State.reset.locate 0x0050 = some (.bank .bank1 0) := by decide
theorem witness_BanksAreIndependent : (State.reset.selectBank .bank3).Inv ∧ State.reset.cfg.busKind = .banked ∧
    (hostApply (.bankWrite 16383 0x99) (State.reset.selectBank .bank3)).2.mem.bank3 = [(16383, 0x99)] := by decide
theorem witness_SelectBankMovesNoData : State.reset.cfg.busKind = .banked ∧ State.reset.sel = .bank1 ∧
    (after (step State.reset) State.sel).isSome = true ∧ (State.reset.write8 0x0050 0x01).isSome = true := by decide
theorem witness_IndexedAccessBounds : State.reset.Inv ∧ State.reset.cfg.busKind = .banked ∧ 16383 < 16384 ∧ 79 < 80 := by
  decide
theorem witness_FetchByteReadsThenAdvances : (banked [0xAA]).read8 0 = some 0xAA ∧
    { State.reset with pc := 0x4050 }.read8 0x4050 = none ∧ (flat 65536 0xFFFF [0xAA]).pc = 0xFFFF := by decide
/-- E4: the second byte is out of range. -/
theorem witness_FetchWordIsTwoFetchBytes :
    fetchByte .fetchOperand (banked [0x34, 0x12]) = .ok (0x34, (banked [0x34, 0x12]).advance 1) ∧
    fetchByte .fetchOperand ((banked [0x34, 0x12]).advance 1) = .ok (0x12, (banked [0x34, 0x12]).advance 2) ∧
    fetchByte .fetchOperand (flat 0 0 []) = .error (.addressOutOfRange 0 .fetchOperand) ∧
    fetchByte .fetchOperand (flat 0x11 0x10 [0x34]) = .ok (0x34, (flat 0x11 0x10 [0x34]).advance 1) ∧
    fetchByte .fetchOperand ((flat 0x11 0x10 [0x34]).advance 1) = .error (.addressOutOfRange 0x0011 .fetchOperand) ∧
    fetchWord (flat 0x11 0x10 [0x34]) = .error (.addressOutOfRange 0x0011 .fetchOperand) :=
  ⟨rfl, rfl, rfl, rfl, rfl, rfl⟩

end Sys2Proof.Tests
end

/-! Proofs of family 00_scope: the two outcomes of a step, and its `miss` output (00_scope R8). -/

namespace Sys2Proof

/-- R80, by rows: a decode miss is a byte that no active row carries. -/
theorem isMiss_iff (c : Config) (b : Byte) : isMiss c b = true ↔ ∀ t, (b, t) ∉ activeRows c := by
  rw [isMiss, Option.isNone_iff_eq_none, lookupTag, lookup_none]
  simp only [List.mem_map, Prod.exists, exists_and_right, exists_eq_right, not_exists]

end Sys2Proof

namespace Sys2Proof.Machine

/-- R143: a step whose opcode byte cannot be read has `miss` 0. -/
theorem missOutput_iff (s : State) :
    missOutput s = true ↔ ∃ b, s.read8 s.pc = some b ∧ ∀ t, (b, t) ∉ activeRows s.cfg := by
  cases h : s.read8 s.pc with
  | none => simp [missOutput, h]
  | some b => simp [missOutput, h, isMiss_iff]

/-- A fetch of a whole instruction that fails reports an address out of range, of its opcode or of an operand. -/
theorem fetchInstr_error {s : State} {e : Fault} (h : fetchInstr s = .error e) :
    ∃ addr kind, e = .addressOutOfRange addr kind := by
  unfold fetchInstr at h
  split at h
  · obtain ⟨addr, rfl⟩ := fetchOperands_error h
    exact ⟨addr, _, rfl⟩
  · next g hg =>
    cases h
    exact ⟨_, _, (fetchByte_error hg).2⟩

/-- A step runs the instruction that its fetch answers. -/
theorem step_of_fetchInstr_ok {s u : State} {i : Instr} (h : fetchInstr s = .ok (i, u)) : step s = exec i u := by
  simp only [step, h]

/-- A step faults where its fetch fails. -/
theorem step_of_fetchInstr_error {s : State} {e : Fault} (h : fetchInstr s = .error e) : step s = .fault e := by
  simp only [step, h]

/-- No step is refused, and the one fault of a step is an address out of range. -/
theorem step_next_or_fault (s : State) :
    (∃ t, step s = .next t) ∨ ∃ addr kind, step s = .fault (.addressOutOfRange addr kind) := by
  cases hf : fetchInstr s with
  | error e =>
    obtain ⟨addr, kind, rfl⟩ := fetchInstr_error hf
    exact .inr ⟨addr, kind, step_of_fetchInstr_error hf⟩
  | ok p =>
    obtain ⟨i, u⟩ := p
    rw [step_of_fetchInstr_ok hf]
    exact (exec_next_or_fault i u).imp_right fun ⟨addr, hx⟩ => ⟨addr, .store, hx⟩

/-- The report of a step that answers a next state carries its `miss` output. -/
theorem stepReport_of_next {s t : State} (h : step s = .next t) : stepReport s = .next (t, missOutput s) := by
  simp only [stepReport, h]

/-- The report of a step that faults is its fault. -/
theorem stepReport_of_fault {s : State} {f : Fault} (h : step s = .fault f) : stepReport s = .fault f := by
  simp only [stepReport, h]

/-- The host's `step()` answers the `miss` output and moves to the next state. -/
theorem hostApply_step_of_next {s t : State} (h : step s = .next t) :
    hostApply .step s = (.stepped (missOutput s), t) := by
  simp only [hostApply, h, hostOutcome]

/-- The host's `step()` reports a fault and keeps the state before the step (60_exceptions R133). -/
theorem hostApply_step_of_fault {s : State} {f : Fault} (h : step s = .fault f) :
    hostApply .step s = (.failed (.fault f), s) := by
  simp only [hostApply, h, hostOutcome]

/-- Settles O7: the fetch and the instruction each answer or report an address out of range, and the two reports of a
step follow its outcome. -/
theorem stepNextOrFault : Obligations.StepNextOrFault := by
  intro s
  refine ⟨missOutput_iff s, ?_⟩
  rcases step_next_or_fault s with ⟨t, h⟩ | ⟨addr, kind, h⟩
  · exact .inl ⟨t, h, stepReport_of_next h, hostApply_step_of_next h⟩
  · exact .inr ⟨addr, kind, h, stepReport_of_fault h, hostApply_step_of_fault h⟩

end Sys2Proof.Machine

/-! Proofs of family 10_state, the invariant (R13, R37): every step and every host operation keeps it. -/

namespace Sys2Proof.Machine

/-! ### Predicates that every write keeps

The invariant (R13, R37) and the zero low nibble of FLAGS alone (R13, for any parameters) are kept for one reason: each
single write of the machine keeps them, and a step or a host operation is made of such writes. -/

/-- A predicate that each single write keeps: of a register, of a pair, and of a location inside its array. -/
structure KeptByWrites (P : State → Prop) : Prop where
  set8 : ∀ (s : State) (r : Reg8) (v : Byte), P s → P (s.set8 r v)
  set16 : ∀ (s : State) (p : Reg16) (w : Word), P s → P (s.set16 p w)
  setLoc : ∀ (s : State) (l : Loc) (v : Byte), P s → l.bounded s.cfg.flatLen → P (s.setLoc l v)

/-- A predicate that each single write keeps, and so do the two other transitions of the host (R156). -/
structure KeptByHost (P : State → Prop) : Prop extends KeptByWrites P where
  selectBank : ∀ (s : State) (id : BankId), P s → P (s.selectBank id)
  construct : ∀ s : State, P s → P (State.construct s.cfg)

section
variable {P : State → Prop} {s t : State}

/-- Moving PC past bytes is a write of PC (R17). -/
theorem KeptByWrites.after_advance (k : KeptByWrites P) (hs : P s) (n : Nat) : P (s.advance n) :=
  k.set16 s .pc _ hs

theorem KeptByWrites.after_write8 (k : KeptByWrites P) (hs : P s) {addr : Word} {v : Byte}
    (h : s.write8 addr v = some t) : P t := by
  rcases s.write8_eq addr v with ⟨-, hn⟩ | ⟨l, hl, hw⟩
  · rw [h] at hn; cases hn
  · rw [h] at hw; cases hw
    exact k.setLoc s l v hs (resolve_bounded _ _ _ _ hl)

theorem KeptByWrites.after_exec (k : KeptByWrites P) (hs : P s) {i : Instr} (h : exec i s = .next t) : P t := by
  rcases exec_next h with rfl | ⟨r, v, -, -, rfl⟩ | ⟨p, w, -, rfl⟩ | ⟨l, v, addr, hl, rfl⟩
  · exact hs
  · exact k.set8 s r v hs
  · exact k.set16 s p w hs
  · exact k.setLoc s l v hs (resolve_bounded _ _ _ _ hl)

theorem KeptByWrites.after_step (k : KeptByWrites P) (hs : P s) (h : step s = .next t) : P t := by
  obtain ⟨i, u, hf, hx⟩ := step_next h
  obtain ⟨b, -, rfl⟩ := fetchInstr_advance hf
  exact k.after_exec (k.after_advance hs _) hx

theorem KeptByWrites.after_executeTag (k : KeptByWrites P) (hs : P s) {g : Tag} (h : executeTag g s = .next t) :
    P t := by
  unfold executeTag at h
  split at h
  · next i u hf =>
    rw [fetchOperands_advance hf] at h
    exact k.after_exec (k.after_advance hs _) h
  · cases h

/-- A host call that runs an instruction ends in the instruction's next state or where it began (R156). -/
theorem hostOutcome_keeps {o : Host.Outcome State Fault Refusal} (reply : HostReply) (hs : P s)
    (ho : ∀ t, o = .next t → P t) : P (hostOutcome s reply o).2 := by
  cases o with
  | next t => exact ho t rfl
  | fault f => exact hs
  | refused r => exact hs

/-- A BankedMemory operation has its own effect on the banked bus and none on the flat one (20_memory R50). -/
theorem onBanked_keeps {answer : HostReply × State} (hs : P s) (ha : P answer.2) : P (onBanked s answer).2 := by
  unfold onBanked
  cases s.cfg.busKind
  · exact ha
  · exact hs

/-- An indexed access has its effect inside the bounds and none outside (20_memory R47). -/
theorem bounded_keeps {i n : Nat} {ok fail : HostReply × State} (hf : P fail.2) (hok : i < n → P ok.2) :
    P (if i < n then ok else fail).2 := by
  split
  · next hi => exact hok hi
  · exact hf

theorem KeptByHost.after_hostApply (k : KeptByHost P) (hs : P s) (op : HostOp) : P (hostApply op s).2 := by
  cases op with
  | construct => exact k.construct s hs
  | get8 r => exact hs
  | get16 p => exact hs
  | set8 r v => exact k.set8 s r v hs
  | set16 p w => exact k.set16 s p w hs
  | increment8 r => exact k.set8 s r _ hs
  | decrement8 r => exact k.set8 s r _ hs
  | increment16 p => exact k.set16 s p _ hs
  | decrement16 p => exact k.set16 s p _ hs
  | selectBank id => exact onBanked_keeps hs (k.selectBank s id hs)
  | activeView => exact onBanked_keeps hs hs
  | bankRead i => exact onBanked_keeps hs (bounded_keeps hs fun _ => hs)
  | bankWrite i v => exact onBanked_keeps hs (bounded_keeps hs fun hi => k.setLoc s (.bank s.sel i) v hs hi)
  | headerRead j => exact onBanked_keeps hs (bounded_keeps hs fun _ => hs)
  | headerWrite j v => exact onBanked_keeps hs (bounded_keeps hs fun hj => k.setLoc s (.header j) v hs hj)
  | read8 addr => simp only [hostApply]; split <;> exact hs
  | write8 addr v =>
    simp only [hostApply]
    split
    · next t hw => exact k.after_write8 hs hw
    · exact hs
  | decode b => exact hs
  | fetchByte =>
    simp only [hostApply]
    split
    · next v t hf => rw [(fetchByte_ok hf).2]; exact k.after_advance hs 1
    · exact hs
  | fetchWord =>
    simp only [hostApply]
    split
    · next w t hf =>
      obtain ⟨lo, hi, -, -, -, rfl⟩ := fetchWord_ok hf
      exact k.after_advance hs 2
    · exact hs
  | execute g =>
    simp only [hostApply]
    split
    · exact hostOutcome_keeps _ hs fun t => k.after_executeTag hs
    · exact hs
  | step => exact hostOutcome_keeps _ hs fun t => k.after_step hs

/-- A session keeps what every host operation keeps (70_reset_and_hazards R153). -/
theorem KeptByHost.after_hostRun (k : KeptByHost P) (ops : List HostOp) (hs : P s) : P (hostRun ops s) := by
  induction ops generalizing s with
  | nil => exact hs
  | cons op rest ih => exact ih (k.after_hostApply hs op)

end

theorem construct_flagsLow (c : Config) : (State.construct c).flagsLow = 0 := by
  simp [State.flagsLow, State.construct]

theorem construct_inv (c : Config) (h : c.WellFormed) : (State.construct c).Inv :=
  ⟨construct_flagsLow c, Memory.zero_wf _, h⟩

theorem inv_keptByHost : KeptByHost State.Inv where
  set8 := State.set8_inv
  set16 := State.set16_inv
  setLoc := State.setLoc_inv
  selectBank _ _ h := h
  construct s h := construct_inv s.cfg h.2.2

/-- The mask alone keeps the low nibble of FLAGS zero, whatever the parameters (R13). -/
theorem flagsLow_keptByHost : KeptByHost fun s => s.flagsLow = 0 where
  set8 := State.set8_flagsLow
  set16 := State.set16_flagsLow
  setLoc _ _ _ h _ := h
  selectBank _ _ h := h
  construct s _ := construct_flagsLow s.cfg

/-- Settles O11: a step is an advance of PC and one instruction's write, and each write keeps the invariant. -/
theorem stepKeepsInv : Obligations.StepKeepsInv :=
  fun _ _ hs h => inv_keptByHost.after_step hs h

/-- Settles O12: every host operation is made of writes that keep the invariant. -/
theorem hostKeepsInv : Obligations.HostKeepsInv :=
  fun op _ hs => inv_keptByHost.after_hostApply hs op

/-- Settles O13: reset storage is empty, hence canonical, and the default parameters are well formed. -/
theorem resetHasInv : Obligations.ResetHasInv :=
  ⟨construct_inv, construct_inv Config.default (by decide)⟩

/-- Settles O36: the paths unfold to the mask, and a session from a new machine keeps the low nibble zero. -/
theorem flagsWritePath : Obligations.FlagsWritePath :=
  ⟨fun _ _ => rfl, fun _ _ => rfl, fun _ => ⟨rfl, rfl⟩,
    fun ops c => flagsLow_keptByHost.after_hostRun ops (construct_flagsLow c)⟩

end Sys2Proof.Machine

/-! Proofs of family 10_state, what no instruction writes or reads (R36) and the advance of PC (R17). -/

namespace Sys2Proof.Machine

/-! ### What no instruction writes (R36) -/

/-- What no instruction writes: E, FLAGS, SP, the selector and the parameters are as in `s` (R36). -/
def SameUnwritten (s t : State) : Prop :=
  t.e = s.e ∧ t.flags = s.flags ∧ t.sp = s.sp ∧ t.sel = s.sel ∧ t.cfg = s.cfg

theorem set8_sameUnwritten (s : State) {r : Reg8} (v : Byte) (hf : r ≠ .flags) (he : r ≠ .e) :
    SameUnwritten s (s.set8 r v) := by
  refine ⟨?_, ?_, State.set8_sp .., State.set8_sel .., State.set8_cfg ..⟩
  · exact (State.get8_set8 s r v .e).trans (if_neg he.symm)
  · exact (State.get8_set8 s r v .flags).trans (if_neg hf.symm)

theorem set16_sameUnwritten (s : State) {p : Reg16} (w : Word) (hp : p = .bc ∨ p = .hl ∨ p = .pc) :
    SameUnwritten s (s.set16 p w) := by
  rcases hp with rfl | rfl | rfl <;> exact ⟨rfl, rfl, rfl, rfl, rfl⟩

theorem exec_sameUnwritten {i : Instr} {s t : State} (h : exec i s = .next t) : SameUnwritten s t := by
  rcases exec_next h with rfl | ⟨r, v, hf, he, rfl⟩ | ⟨p, w, hp, rfl⟩ | ⟨l, v, addr, -, rfl⟩
  · exact ⟨rfl, rfl, rfl, rfl, rfl⟩
  · exact set8_sameUnwritten s v hf he
  · exact set16_sameUnwritten s w hp
  · exact ⟨rfl, rfl, rfl, rfl, rfl⟩

/-- Settles O14: an instruction's one write is to another register or to memory, and a fetch writes only PC. -/
theorem neverWritten : Obligations.NeverWritten := by
  refine ⟨fun _ _ _ h => exec_sameUnwritten h, fun s t h => ?_⟩
  obtain ⟨i, u, hf, hx⟩ := step_next h
  obtain ⟨b, -, rfl⟩ := fetchInstr_advance hf
  have hkept := exec_sameUnwritten hx
  exact hkept

/-! ### PC (R17) -/

/-- The instruction that a format completes has the tag `g`, whatever its operands. -/
def FormHasTag (g : Tag) : Form → Prop
  | .op i => i.tag = g
  | .opD8 k => ∀ v, (k v).tag = g
  | .opD16 k => ∀ w, (k w).tag = g

theorem form_hasTag (g : Tag) : FormHasTag g g.form := by
  cases g <;> simp [FormHasTag, Tag.form, Instr.tag]

theorem formOf_hasTag (c : Config) (b : Byte) : FormHasTag (decodeTag c b) (formOf c b) := by
  unfold formOf decodeTag
  cases lookupTag c b with
  | none => rfl
  | some g => exact form_hasTag g

/-- A byte's format is as long as its tag; a miss is one byte long, as its no-operation tag is (R80). -/
theorem formOf_length (c : Config) (b : Byte) : 1 + (formOf c b).operandBytes = (decodeTag c b).length := by
  unfold formOf decodeTag
  cases lookupTag c b <;> rfl

theorem fetchOperands_tag {f : Form} {g : Tag} {s u : State} {i : Instr} (hg : FormHasTag g f)
    (h : fetchOperands f s = .ok (i, u)) : i.tag = g := by
  cases f with
  | op j => cases h; exact hg
  | opD8 k =>
    simp only [fetchOperands] at h
    split at h
    · next v t hv => cases h; exact hg v
    · cases h
  | opD16 k =>
    simp only [fetchOperands] at h
    split at h
    · next w t hw => cases h; exact hg w
    · cases h

/-- The instruction fetched at PC has the tag of the byte there. -/
theorem fetchInstr_tag {s u : State} {i : Instr} {b : Byte} (h : fetchInstr s = .ok (i, u))
    (hb : s.read8 s.pc = some b) : i.tag = decodeTag s.cfg b := by
  simp only [fetchInstr, fetchByte_some .fetchOpcode s b hb] at h
  exact fetchOperands_tag (formOf_hasTag s.cfg b) h

theorem storeByte_pc {s t : State} {addr : Word} {v : Byte} (h : s.storeByte addr v = .next t) : t.pc = s.pc := by
  obtain ⟨l, -, rfl⟩ := State.storeByte_next h
  rfl

/-- Only AbsoluteJump writes PC (R17). -/
theorem exec_pc {i : Instr} {s t : State} (h : exec i s = .next t) (hi : i.tag ≠ .absoluteJump) : t.pc = s.pc := by
  cases i with
  | absoluteJump w => exact absurd rfl hi
  | storeAIndirectBC => exact storeByte_pc h
  | loadImmediate8HLind v =>
    simp only [exec, execLoadImmediate8HLind] at h
    split at h
    · cases h; rfl
    · cases h; rfl
    · exact storeByte_pc h
  | noOp => cases h; rfl
  | loadImmediate16BC w => cases h; rfl
  | increment16BC => cases h; rfl
  | increment8B => cases h; rfl
  | decrement8B => cases h; rfl
  | loadImmediate8B v => cases h; rfl
  | loadImmediate8C v => cases h; rfl
  | loadImmediate8D v => cases h; rfl
  | loadImmediate8H v => cases h; rfl
  | loadImmediate8L v => cases h; rfl
  | loadImmediate8A v => cases h; rfl
  | noOpMiss n => cases h; rfl

/-- Settles O9: the fetch moves PC past the length of the byte's format, and the instruction leaves PC there. -/
theorem pcAdvancesByLength : Obligations.PcAdvancesByLength := by
  intro s t b h hb hj
  obtain ⟨i, u, hf, hx⟩ := step_next h
  have htag := fetchInstr_tag hf hb
  obtain ⟨b', hb', rfl⟩ := fetchInstr_advance hf
  obtain rfl : b = b' := Option.some.inj (hb.symm.trans hb')
  rw [exec_pc hx (htag ▸ hj), State.advance_pc, formOf_length]

/-! ### What no instruction reads (R36) -/

/-- The next state changed by `g`; a fault or a refusal as it is. -/
def mapNext (g : State → State) : Host.Outcome State Fault Refusal → Host.Outcome State Fault Refusal
  | .next t => .next (g t)
  | .fault f => .fault f
  | .refused r => .refused r

/-- A fetch's answer with the state after it changed by `g`; a fault as it is. -/
def mapFetch {α : Type} (g : State → State) : Except Fault (α × State) → Except Fault (α × State)
  | .ok (x, t) => .ok (x, g t)
  | .error e => .error e

/-- `s` with other values in FLAGS, SP and E. -/
def State.withUnread (f : Byte) (p : Word) (v : Byte) (s : State) : State := { s with flags := f, sp := p, e := v }

section
variable (f : Byte) (p : Word) (v : Byte) (s : State)

theorem storeByte_withUnread (addr : Word) (x : Byte) :
    (s.withUnread f p v).storeByte addr x = mapNext (State.withUnread f p v) (s.storeByte addr x) := by
  have hloc : (s.withUnread f p v).locate addr = s.locate addr := rfl
  cases h : s.locate addr with
  | none => rw [State.storeByte_none s addr x h, State.storeByte_none _ addr x (hloc.trans h)]; rfl
  | some l => rw [State.storeByte_some s addr x l h, State.storeByte_some _ addr x l (hloc.trans h)]; rfl

theorem exec_withUnread (i : Instr) :
    exec i (s.withUnread f p v) = mapNext (State.withUnread f p v) (exec i s) := by
  cases i with
  | storeAIndirectBC => exact storeByte_withUnread f p v s _ _
  | loadImmediate8HLind d =>
    have hcfg : (s.withUnread f p v).cfg = s.cfg := rfl
    simp only [exec, execLoadImmediate8HLind, hcfg]
    cases s.cfg.hlIndMode with
    | absent => rfl
    | overwritePair => rfl
    | memoryWrite => exact storeByte_withUnread f p v s _ _
  | noOp => rfl
  | loadImmediate16BC w => rfl
  | increment16BC => rfl
  | increment8B => rfl
  | decrement8B => rfl
  | loadImmediate8B d => rfl
  | loadImmediate8C d => rfl
  | loadImmediate8D d => rfl
  | loadImmediate8H d => rfl
  | loadImmediate8L d => rfl
  | loadImmediate8A d => rfl
  | absoluteJump w => rfl
  | noOpMiss n => rfl

theorem fetchByte_withUnread (k : AccessKind) :
    fetchByte k (s.withUnread f p v) = mapFetch (State.withUnread f p v) (fetchByte k s) := by
  have hread : (s.withUnread f p v).read8 (s.withUnread f p v).pc = s.read8 s.pc := rfl
  cases h : s.read8 s.pc with
  | none => rw [fetchByte_none k s h, fetchByte_none k _ (hread.trans h)]; rfl
  | some b => rw [fetchByte_some k s b h, fetchByte_some k _ b (hread.trans h)]; rfl

theorem fetchWord_withUnread :
    fetchWord (s.withUnread f p v) = mapFetch (State.withUnread f p v) (fetchWord s) := by
  have hlow : (s.withUnread f p v).read8 (s.withUnread f p v).pc = s.read8 s.pc := rfl
  have hhigh : (s.withUnread f p v).read8 ((s.withUnread f p v).pc + 1) = s.read8 (s.pc + 1) := rfl
  cases h0 : s.read8 s.pc with
  | none => rw [fetchWord_none_low s h0, fetchWord_none_low _ (hlow.trans h0)]; rfl
  | some lo =>
    cases h1 : s.read8 (s.pc + 1) with
    | none => rw [fetchWord_none_high s lo h0 h1, fetchWord_none_high _ lo (hlow.trans h0) (hhigh.trans h1)]; rfl
    | some hi => rw [fetchWord_some s lo hi h0 h1, fetchWord_some _ lo hi (hlow.trans h0) (hhigh.trans h1)]; rfl

theorem fetchOperands_withUnread (fm : Form) :
    fetchOperands fm (s.withUnread f p v) = mapFetch (State.withUnread f p v) (fetchOperands fm s) := by
  cases fm with
  | op i => rfl
  | opD8 k => simp only [fetchOperands, fetchByte_withUnread]; cases fetchByte .fetchOperand s <;> rfl
  | opD16 k => simp only [fetchOperands, fetchWord_withUnread]; cases fetchWord s <;> rfl

theorem fetchInstr_withUnread :
    fetchInstr (s.withUnread f p v) = mapFetch (State.withUnread f p v) (fetchInstr s) := by
  simp only [fetchInstr, fetchByte_withUnread]
  cases fetchByte .fetchOpcode s with
  | error e => rfl
  | ok r => exact fetchOperands_withUnread f p v r.2 _

theorem step_withUnread : step (s.withUnread f p v) = mapNext (State.withUnread f p v) (step s) := by
  simp only [step, fetchInstr_withUnread]
  cases fetchInstr s with
  | error e => rfl
  | ok r => exact exec_withUnread f p v r.2 r.1

end

/-- Settles O15: fetch and instruction both commute with a change of FLAGS, SP and E. -/
theorem neverRead : Obligations.NeverRead := by
  intro s f p v
  have hstep := step_withUnread f p v s
  exact ⟨fun t h => by rw [h] at hstep; exact hstep, fun g h => by rw [h] at hstep; exact hstep⟩

end Sys2Proof.Machine

/-! Proofs of family 10_state, the accessors: FLAGS (R12 to R14, R27), 8-bit and 16-bit registers (R20 to R26), and
the reset values (R35). -/

namespace Sys2Proof.Machine

/-! ### FLAGS -/

/-- The mask in numbers: it drops the low nibble (R13). -/
theorem maskFlags_toNat (v : Byte) : (maskFlags v).toNat = v.toNat / 16 * 16 := by
  revert v; decide

/-- A zero low nibble in numbers. -/
theorem State.flagsLow_iff (s : State) : s.flagsLow = 0 ↔ s.flags.toNat % 16 = 0 := by
  have hlow : s.flagsLow.toNat = s.flags.toNat % 2 ^ 4 := by
    rw [State.flagsLow, BitVec.toNat_and]
    exact Nat.and_two_pow_sub_one_eq_mod s.flags.toNat 4
  rw [← BitVec.toNat_inj, hlow]
  rfl

/-- A byte is its high nibble's four bits, by weight, where its low nibble is zero (R12). -/
theorem toNat_of_highNibble (v : Byte) (h : v &&& 0x0F = 0) :
    v.toNat = 128 * (v.getLsbD 7).toNat + 64 * (v.getLsbD 6).toNat + 32 * (v.getLsbD 5).toNat +
      16 * (v.getLsbD 4).toNat := by
  revert v; decide

/-- Bits 3..0 of a masked byte are zero (R13). -/
theorem maskFlags_getLsbD_low (v : Byte) {k : Nat} (hk : k < 4) : (maskFlags v).getLsbD k = false := by
  have hmask : ((0xF0 : Byte)).getLsbD k = false := by revert k; decide
  rw [maskFlags, BitVec.getLsbD_and, hmask, Bool.and_false]

/-- Settles O37: the layout is the weight of the four high bits, and a write masks the other four. -/
theorem flagsLayout : Obligations.FlagsLayout :=
  fun s => ⟨rfl, toNat_of_highNibble s.flags, fun v _ hk => maskFlags_getLsbD_low v hk⟩

/-- AF as stored by a 16-bit write, in numbers: the low nibble is dropped (R23). -/
theorem mkWord_maskFlags_toNat (w : Word) : (mkWord (hiByte w) (maskFlags (loByte w))).toNat = w.toNat / 16 * 16 := by
  rw [mkWord_toNat, maskFlags_toNat, hiByte_toNat, loByte_toNat]
  omega

/-- AF as stored by a 16-bit write: `w & 0xFFF0` (R23). -/
theorem mkWord_maskFlags (w : Word) : mkWord (hiByte w) (maskFlags (loByte w)) = w &&& 0xFFF0 := by
  have hsplit : mkWord (hiByte w) (loByte w) &&& mkWord 0xFF 0xF0 =
      mkWord (hiByte w &&& 0xFF) (maskFlags (loByte w)) := BitVec.and_append
  have hhigh : hiByte w &&& 0xFF = hiByte w := BitVec.and_allOnes
  have hmask : mkWord 0xFF 0xF0 = 0xFFF0 := by decide
  rw [mkWord_hi_lo, hhigh, hmask] at hsplit
  exact hsplit.symm

/-! Increment and decrement in numbers (R25, R26). -/

theorem byte_add_one_toNat (v : Byte) : (v + 1).toNat = (v.toNat + 1) % 256 := BitVec.toNat_add v 1

theorem byte_sub_one_toNat (v : Byte) : (v - 1).toNat = (v.toNat + 255) % 256 :=
  (BitVec.toNat_sub v 1).trans (congrArg (· % 256) (Nat.add_comm _ _))

theorem word_add_one_toNat (w : Word) : (w + 1).toNat = (w.toNat + 1) % 65536 := BitVec.toNat_add w 1

theorem word_sub_one_toNat (w : Word) : (w - 1).toNat = (w.toNat + 65535) % 65536 :=
  (BitVec.toNat_sub w 1).trans (congrArg (· % 65536) (Nat.add_comm _ _))

/-- An increment of FLAGS reaches bit 0 only, which the mask drops (R27). -/
theorem State.inc8_flags_of_low (s : State) (h : s.flagsLow = 0) : s.inc8 .flags = s := by
  rw [State.flagsLow_iff] at h
  have hflags : maskFlags (s.flags + 1) = s.flags := by
    apply BitVec.eq_of_toNat_eq
    rw [maskFlags_toNat, byte_add_one_toNat]
    omega
  exact congrArg (fun x => { s with flags := x }) hflags

/-- A decrement of FLAGS borrows from bit 4 on (R27). -/
theorem State.dec8_flags_of_low (s : State) (h : s.flagsLow = 0) : (s.dec8 .flags).flags = s.flags - 0x10 := by
  rw [State.flagsLow_iff] at h
  apply BitVec.eq_of_toNat_eq
  calc (maskFlags (s.flags - 1)).toNat = (s.flags.toNat + 255) % 256 / 16 * 16 := by
        rw [maskFlags_toNat, byte_sub_one_toNat]
    _ = (240 + s.flags.toNat) % 256 := by omega
    _ = (s.flags - 0x10).toNat := (BitVec.toNat_sub s.flags 0x10).symm

/-- An increment of AF does not carry out of FLAGS, whose bit 0 the mask drops (R27). -/
theorem State.inc16_af_of_low (s : State) (h : s.flagsLow = 0) : s.inc16 .af = s := by
  rw [State.flagsLow_iff] at h
  have hf := s.flags.isLt
  have ha := s.a.isLt
  have haf : (s.get16 .af + 1).toNat = s.a.toNat * 256 + s.flags.toNat + 1 := by
    rw [word_add_one_toNat, State.get16, mkWord_toNat]
    omega
  have hhigh : hiByte (s.get16 .af + 1) = s.a := by
    apply BitVec.eq_of_toNat_eq
    rw [hiByte_toNat, haf]
    omega
  have hlow : maskFlags (loByte (s.get16 .af + 1)) = s.flags := by
    apply BitVec.eq_of_toNat_eq
    rw [maskFlags_toNat, loByte_toNat, haf]
    omega
  rw [State.inc16, State.set16_fields]
  exact congrArg₂ (fun x y => { s with a := x, flags := y }) hhigh hlow

/-- A decrement of AF borrows from bit 4 on (R27). -/
theorem State.dec16_af_of_low (s : State) (h : s.flagsLow = 0) :
    (s.dec16 .af).get16 .af = s.get16 .af - 0x10 := by
  rw [State.flagsLow_iff] at h
  have haf : (s.get16 .af).toNat % 16 = 0 := by
    rw [State.get16, mkWord_toNat]
    omega
  rw [State.dec16, State.get16_set16_same]
  apply BitVec.eq_of_toNat_eq
  calc (mkWord (hiByte (s.get16 .af - 1)) (maskFlags (loByte (s.get16 .af - 1)))).toNat
      = ((s.get16 .af).toNat + 65535) % 65536 / 16 * 16 := by
        rw [mkWord_maskFlags_toNat, word_sub_one_toNat]
    _ = (65520 + (s.get16 .af).toNat) % 65536 := by omega
    _ = (s.get16 .af - 0x10).toNat := (BitVec.toNat_sub (s.get16 .af) 0x10).symm

/-- Settles O42: the mask drops the one bit an increment reaches, and turns a decrement's borrow into bit 4's. -/
theorem flagsIncDecCorners : Obligations.FlagsIncDecCorners :=
  fun s h => ⟨s.inc8_flags_of_low h, s.dec8_flags_of_low h, s.inc16_af_of_low h, s.dec16_af_of_low h⟩

/-! ### 8-bit registers -/

/-- Settles O38: the read-back and the frame of an 8-bit write; the other clauses unfold. -/
theorem set8WritesOneRegister : Obligations.Set8WritesOneRegister := by
  intro s r v
  refine ⟨?_, s.set8_regsFrame r v, s.set8_pc r v, s.set8_mem r v,
    ⟨rfl, rfl, rfl, rfl, rfl, rfl, rfl, rfl⟩, fun _ => rfl, rfl⟩
  rw [State.get8_set8, if_pos rfl]
  rfl

/-- A register other than FLAGS holds what is written to it (R21). -/
theorem State.get8_set8_same (s : State) {r : Reg8} (v : Byte) (hr : r ≠ .flags) : (s.set8 r v).get8 r = v := by
  rw [State.get8_set8, if_pos rfl, if_neg hr]

/-- Settles O40: an increment or decrement is one 8-bit write, of the modular result. -/
theorem incDec8Modular : Obligations.IncDec8Modular := by
  refine fun s r => ⟨fun hr => ⟨?_, ?_⟩, ⟨rfl, rfl⟩, s.set8_regsFrame r _, s.set8_regsFrame r _,
    s.set8_pc r _, s.set8_pc r _, s.set8_mem r _, s.set8_mem r _⟩
  · rw [State.inc8, s.get8_set8_same _ hr, byte_add_one_toNat]
  · rw [State.dec8, s.get8_set8_same _ hr, byte_sub_one_toNat]

/-! ### 16-bit registers -/

/-- A register other than AF reads back whole (R23). -/
theorem State.get16_set16_of_ne_af (s : State) {p : Reg16} (w : Word) (hp : p ≠ .af) :
    (s.set16 p w).get16 p = w := by
  rw [State.get16_set16_same]
  cases p with
  | af => exact absurd rfl hp
  | bc => rfl
  | de => rfl
  | hl => rfl
  | pc => rfl
  | sp => rfl

/-- Only a write of PC writes PC. -/
theorem State.set16_pc_of_ne (s : State) {p : Reg16} (w : Word) (hp : p ≠ .pc) : (s.set16 p w).pc = s.pc := by
  cases p with
  | pc => exact absurd rfl hp
  | af => rfl
  | bc => rfl
  | de => rfl
  | hl => rfl
  | sp => rfl

/-- Only a write of AF writes FLAGS. -/
theorem State.set16_flags_of_ne (s : State) {p : Reg16} (w : Word) (hp : p ≠ .af) :
    (s.set16 p w).flags = s.flags := by
  cases p with
  | af => exact absurd rfl hp
  | bc => rfl
  | de => rfl
  | hl => rfl
  | pc => rfl
  | sp => rfl

/-- Two transitions in sequence leave alone what neither touches. -/
theorem RegsFrame.trans {qs rs : List Reg8} {s t u : State} (h : RegsFrame qs s t) (k : RegsFrame rs t u) :
    RegsFrame (qs ++ rs) s u := by
  obtain ⟨hreg, hsp, hsel, hcfg⟩ := h
  obtain ⟨kreg, ksp, ksel, kcfg⟩ := k
  refine ⟨fun r hr => ?_, ksp.trans hsp, ksel.trans hsel, kcfg.trans hcfg⟩
  rw [List.mem_append, not_or] at hr
  exact (kreg r hr.2).trans (hreg r hr.1)

/-- The two 8-bit writes of a pair change its two halves and no other register (R23). -/
theorem State.set8_set8_regsFrame (s : State) (q r : Reg8) (v x : Byte) :
    RegsFrame [q, r] s ((s.set8 q v).set8 r x) :=
  (s.set8_regsFrame q v).trans ((s.set8 q v).set8_regsFrame r x)

/-- Settles O39: a pair write is two 8-bit writes, of the halves that `mkWord` joins again. -/
theorem set16SplitsPairs : Obligations.Set16SplitsPairs := by
  intro s w
  refine ⟨⟨hiByte_toNat w, rfl, ?_⟩, ⟨hiByte_toNat w, loByte_toNat w⟩, ⟨hiByte_toNat w, loByte_toNat w⟩,
    ⟨hiByte_toNat w, loByte_toNat w⟩, ⟨rfl, rfl⟩, ⟨?_, ?_, ?_, ?_⟩,
    fun p => ⟨s.set16_mem p w, s.set16_pc_of_ne w⟩, fun _ => s.get16_set16_of_ne_af w,
    mkWord_toNat .., mkWord_toNat .., mkWord_toNat .., mkWord_toNat .., rfl, rfl⟩
  · rw [State.get16_set16_same]
    exact mkWord_maskFlags w
  all_goals exact s.set8_set8_regsFrame _ _ _ _

/-- Settles O41: an increment or decrement is one 16-bit write, of the modular result. -/
theorem incDec16Modular : Obligations.IncDec16Modular := by
  refine fun s p => ⟨fun hp => ⟨?_, ?_, s.set16_flags_of_ne _ hp, s.set16_flags_of_ne _ hp⟩, rfl, rfl⟩
  · rw [State.inc16, s.get16_set16_of_ne_af _ hp, word_add_one_toNat]
  · rw [State.dec16, s.get16_set16_of_ne_af _ hp, word_sub_one_toNat]

/-! ### Reset -/

theorem construct_get8 (c : Config) (r : Reg8) : (State.construct c).get8 r = 0 := by
  cases r <;> rfl

theorem construct_get16 (c : Config) (p : Reg16) : (State.construct c).get16 p = 0 := by
  have hpair : mkWord 0x00 0x00 = 0 := by decide
  cases p with
  | pc => rfl
  | sp => rfl
  | af => exact hpair
  | bc => exact hpair
  | de => exact hpair
  | hl => exact hpair

theorem Memory.zero_get (l : Loc) : Memory.zero.get l = 0 := by
  cases l with
  | header i => rfl
  | bank id i => cases id <;> rfl
  | buf i => rfl

/-- Settles O51: every array of a new machine is empty, so address 0 holds the default NoOp byte. -/
theorem resetValues : Obligations.ResetValues :=
  ⟨fun c => ⟨construct_get8 c, construct_get16 c, Memory.zero_get, rfl⟩, rfl⟩

end Sys2Proof.Machine

/-! Proofs of family 20_memory: the address map (R48 to R50, R54), the banks and the selector (R43 to R47), the hidden
bank under a step, and a store seen by the next fetch (R58). -/

namespace Sys2Proof.Machine

/-! ### A bank that is not selected -/

/-- No bus address reaches a bank that is not selected (R45, R48). -/
theorem resolve_ne_hiddenBank {c : Config} {sel id : BankId} {addr : Word} {l : Loc} (hid : id ≠ sel)
    (h : resolve c sel addr = some l) (i : Nat) : l ≠ .bank id i := by
  rintro rfl
  unfold resolve at h
  split at h
  · split at h
    · cases h
    · split at h
      · cases h; exact hid rfl
      · cases h
  · split at h <;> cases h

@[simp] theorem Memory.bank_setBank_same (m : Memory) (id : BankId) (cs : Cells) : (m.setBank id cs).bank id = cs := by
  cases id <;> rfl

@[simp] theorem Memory.setBank_bank_self (m : Memory) (id : BankId) : m.setBank id (m.bank id) = m := by
  cases id <;> rfl

@[simp] theorem Memory.setBank_header (m : Memory) (id : BankId) (cs : Cells) :
    (m.setBank id cs).header = m.header := by
  cases id <;> rfl

theorem Memory.bank_setBank_of_ne (m : Memory) {id id' : BankId} (cs : Cells) (h : id' ≠ id) :
    (m.setBank id cs).bank id' = m.bank id' := by
  cases id <;> cases id' <;> simp_all [Memory.setBank, Memory.bank]

theorem Memory.setBank_comm (m : Memory) {id id' : BankId} (cs cs' : Cells) (h : id' ≠ id) :
    (m.setBank id cs).setBank id' cs' = (m.setBank id' cs').setBank id cs := by
  cases id <;> cases id' <;> simp_all [Memory.setBank]

/-- A location outside a bank reads the same whatever the bank holds (R46). -/
theorem Memory.get_setBank (m : Memory) (id : BankId) (cs : Cells) {l : Loc} (hl : ∀ i, l ≠ .bank id i) :
    (m.setBank id cs).get l = m.get l := by
  cases l with
  | header i => cases id <;> rfl
  | buf i => cases id <;> rfl
  | bank id' i =>
    have hne : id' ≠ id := fun h => hl i (h ▸ rfl)
    simp only [Memory.get, m.bank_setBank_of_ne cs hne]

/-- A write outside a bank does the same whatever the bank holds (R46). -/
theorem Memory.set_setBank (m : Memory) (id : BankId) (cs : Cells) {l : Loc} (v : Byte) (hl : ∀ i, l ≠ .bank id i) :
    (m.setBank id cs).set l v = (m.set l v).setBank id cs := by
  cases l with
  | header i => cases id <;> rfl
  | buf i => cases id <;> rfl
  | bank id' i =>
    have hne : id' ≠ id := fun h => hl i (h ▸ rfl)
    simp only [Memory.set, m.bank_setBank_of_ne cs hne, m.setBank_comm cs _ hne]

/-- `s` with other contents in one bank. -/
def State.withBank (id : BankId) (cs : Cells) (s : State) : State := { s with mem := s.mem.setBank id cs }

/-! A fetch depends on PC, the parameters and what the bus reads, and on nothing else of the state. -/

/-- `s` with the PC of `u`. -/
def State.withPcOf (s u : State) : State := { s with pc := u.pc }

section
variable {s s' : State} (hpc : s'.pc = s.pc) (hread : ∀ x, s'.read8 x = s.read8 x)
include hpc hread

theorem fetchByte_congr (k : AccessKind) :
    fetchByte k s' = mapFetch s'.withPcOf (fetchByte k s) := by
  have hread' : s'.read8 s'.pc = s.read8 s.pc := by rw [hpc, hread]
  cases h : s.read8 s.pc with
  | none => rw [fetchByte_none k s h, fetchByte_none k s' (hread'.trans h), hpc]; rfl
  | some v => rw [fetchByte_some k s v h, fetchByte_some k s' v (hread'.trans h), State.advance, hpc]; rfl

theorem fetchWord_congr : fetchWord s' = mapFetch s'.withPcOf (fetchWord s) := by
  simp only [fetchWord, hpc, hread]
  cases s.read8 s.pc with
  | none => rfl
  | some lo => cases s.read8 (s.pc + 1) <;> rfl

theorem fetchOperands_congr (f : Form) :
    fetchOperands f s' = mapFetch s'.withPcOf (fetchOperands f s) := by
  cases f with
  | op i => simp only [fetchOperands, mapFetch, State.withPcOf, ← hpc]
  | opD8 k => simp only [fetchOperands, fetchByte_congr hpc hread]; cases fetchByte .fetchOperand s <;> rfl
  | opD16 k => simp only [fetchOperands, fetchWord_congr hpc hread]; cases fetchWord s <;> rfl

theorem fetchInstr_congr (hcfg : s'.cfg = s.cfg) :
    fetchInstr s' = mapFetch s'.withPcOf (fetchInstr s) := by
  simp only [fetchInstr, fetchByte_congr hpc hread, hcfg]
  cases hb : fetchByte .fetchOpcode s with
  | error e => rfl
  | ok r =>
    obtain ⟨b, u⟩ := r
    obtain ⟨-, rfl⟩ := fetchByte_ok hb
    exact fetchOperands_congr (s := s.advance 1) (s' := s'.withPcOf (s.advance 1)) rfl hread (formOf s.cfg b)

end

section
variable {id : BankId} (cs : Cells) {s : State} (hid : id ≠ s.sel)
include hid

theorem read8_withBank (x : Word) : (s.withBank id cs).read8 x = s.read8 x := by
  have hloc : (s.withBank id cs).locate x = s.locate x := rfl
  simp only [State.read8, hloc]
  cases h : s.locate x with
  | none => rfl
  | some l => exact congrArg some (s.mem.get_setBank id cs (resolve_ne_hiddenBank hid h))

theorem storeByte_withBank (addr : Word) (v : Byte) :
    (s.withBank id cs).storeByte addr v = mapNext (State.withBank id cs) (s.storeByte addr v) := by
  have hloc : (s.withBank id cs).locate addr = s.locate addr := rfl
  cases h : s.locate addr with
  | none => rw [State.storeByte_none s addr v h, State.storeByte_none _ addr v (hloc.trans h)]; rfl
  | some l =>
    rw [State.storeByte_some s addr v l h, State.storeByte_some _ addr v l (hloc.trans h)]
    have hset := s.mem.set_setBank id cs v (resolve_ne_hiddenBank hid h)
    exact congrArg (fun m => Host.Outcome.next { s with mem := m }) hset

theorem exec_withBank (i : Instr) : exec i (s.withBank id cs) = mapNext (State.withBank id cs) (exec i s) := by
  cases i with
  | storeAIndirectBC => exact storeByte_withBank cs hid _ _
  | loadImmediate8HLind d =>
    have hcfg : (s.withBank id cs).cfg = s.cfg := rfl
    simp only [exec, execLoadImmediate8HLind, hcfg]
    cases s.cfg.hlIndMode with
    | absent => rfl
    | overwritePair => rfl
    | memoryWrite => exact storeByte_withBank cs hid _ _
  | _ => rfl

theorem step_withBank : step (s.withBank id cs) = mapNext (State.withBank id cs) (step s) := by
  have hfetch := fetchInstr_congr (s := s) (s' := s.withBank id cs) rfl (read8_withBank cs hid) rfl
  cases h : fetchInstr s with
  | error e =>
    rw [h] at hfetch
    rw [step_of_fetchInstr_error h, step_of_fetchInstr_error hfetch]
    rfl
  | ok r =>
    obtain ⟨i, u⟩ := r
    obtain ⟨b, -, rfl⟩ := fetchInstr_advance h
    rw [h] at hfetch
    rw [step_of_fetchInstr_ok h, step_of_fetchInstr_ok hfetch]
    exact exec_withBank (s := s.advance _) cs hid i

end

/-- A step leaves a bank that is not selected as it is: the step commutes with writing its own contents to it. -/
theorem step_hiddenBank {s t : State} {id : BankId} (hid : id ≠ s.sel) (h : step s = .next t) :
    t.mem.bank id = s.mem.bank id := by
  have hself : s.withBank id (s.mem.bank id) = s := by simp [State.withBank]
  have hstep := step_withBank (s.mem.bank id) hid
  rw [hself, h] at hstep
  injection hstep with ht
  rw [ht]
  exact t.mem.bank_setBank_same id _

/-- Settles O16: fetch and instruction both commute with a change of a bank that is not selected. -/
theorem hiddenBankIsolated : Obligations.HiddenBankIsolated := by
  intro s id cs hid
  have hstep := step_withBank cs hid
  exact ⟨fun t h => ⟨step_hiddenBank hid h, by rw [h] at hstep; exact hstep⟩,
    fun g h => by rw [h] at hstep; exact hstep⟩

/-! ### The selector -/

/-- No step writes the selector (R36, R44). -/
theorem step_sel {s t : State} (h : step s = .next t) : t.sel = s.sel := by
  obtain ⟨-, -, -, hsel, -⟩ := neverWritten.2 s t h
  exact hsel

/-- A bus write that succeeds is a write of the location its address reaches. -/
theorem State.write8_some {s t : State} {addr : Word} {v : Byte} (h : s.write8 addr v = some t) :
    ∃ l, s.locate addr = some l ∧ t = s.setLoc l v := by
  rcases s.write8_eq addr v with ⟨-, hn⟩ | ⟨l, hl, hw⟩
  · rw [h] at hn; cases hn
  · rw [h] at hw; cases hw; exact ⟨l, hl, rfl⟩

/-- A BankedMemory operation has its own answer on the banked bus (R50). -/
theorem onBanked_of_banked {s : State} (hb : s.cfg.busKind = .banked) (answer : HostReply × State) :
    onBanked s answer = answer := by
  simp only [onBanked, hb]

/-- Settles O47: `select_bank` unfolds to the write of the selector, which no step and no store makes. -/
theorem selectBankMovesNoData : Obligations.SelectBankMovesNoData := by
  refine ⟨fun s id hb => ⟨onBanked_of_banked hb _, ?_⟩, fun _ _ => step_sel, fun s t addr v h => ?_⟩
  · rintro rfl
    exact onBanked_of_banked hb _
  · obtain ⟨l, -, rfl⟩ := State.write8_some h
    rfl

/-! ### The bus -/

/-- Storage reads back what is written to it. -/
theorem State.setLoc_get_same {s : State} (hs : s.Inv) (l : Loc) (v : Byte) : (s.setLoc l v).mem.get l = v := by
  rw [State.setLoc_mem, Memory.get_set _ _ _ _ _ hs.2.1, if_pos rfl]

/-- Settles O43: a bus write is the write of one location, and no two addresses reach it. -/
theorem busReadAfterWrite : Obligations.BusReadAfterWrite := by
  intro s t addr v hi h
  obtain ⟨l, hl, rfl⟩ := State.write8_some h
  exact ⟨l, hl, s.setLoc_storeFrame addr l v hl hi, State.setLoc_get_same hi l v,
    ⟨fun r _ => s.setLoc_get8 r v l, rfl, rfl, rfl⟩, rfl⟩

section
variable {s : State} {addr : Word}

theorem State.locate_header (hb : s.cfg.busKind = .banked) (hlo : s.cfg.headerBase ≤ addr.toNat)
    (hhi : addr.toNat < s.cfg.headerBase + headerLen) :
    s.locate addr = some (.header (addr.toNat - s.cfg.headerBase)) := by
  simp only [State.locate, resolve, hb, if_pos (And.intro hlo hhi)]

/-- Where the two ranges overlap the header's wins (log 23), so the address must be outside it. -/
theorem State.locate_window (hb : s.cfg.busKind = .banked)
    (hh : ¬ (s.cfg.headerBase ≤ addr.toNat ∧ addr.toNat < s.cfg.headerBase + headerLen))
    (hlo : s.cfg.windowBase ≤ addr.toNat) (hhi : addr.toNat < s.cfg.windowBase + bankLen) :
    s.locate addr = some (.bank s.sel (addr.toNat - s.cfg.windowBase)) := by
  simp only [State.locate, resolve, hb, if_neg hh, if_pos (And.intro hlo hhi)]

theorem State.locate_flat (hb : s.cfg.busKind = .flat) :
    s.locate addr = if addr.toNat < s.cfg.flatLen then some (.buf addr.toNat) else none := by
  simp only [State.locate, resolve, hb]

theorem State.inRange_banked (hb : s.cfg.busKind = .banked) : s.InRange addr ↔
    (s.cfg.headerBase ≤ addr.toNat ∧ addr.toNat < s.cfg.headerBase + headerLen) ∨
    (s.cfg.windowBase ≤ addr.toNat ∧ addr.toNat < s.cfg.windowBase + bankLen) := by
  simp only [State.InRange, State.locate, resolve, hb]
  split
  · next hh => simp [hh]
  · next hh => split <;> next hw => simp [hh, hw]

theorem State.inRange_flat (hb : s.cfg.busKind = .flat) : s.InRange addr ↔ addr.toNat < s.cfg.flatLen := by
  rw [State.InRange, State.locate_flat hb]
  split <;> next h => simp [h]

/-- An address outside the map fails for a read and for a write (R49). -/
theorem State.fails_of_not_inRange (h : ¬ s.InRange addr) :
    s.read8 addr = none ∧ ∀ v, s.write8 addr v = none := by
  have hl : s.locate addr = none := by simpa using h
  simp [State.read8, State.write8, hl]

end

/-- Settles O44: the map unfolds to its ranges on each bus. -/
theorem addressMap : Obligations.AddressMap := by
  refine fun s addr => ⟨State.inRange_banked, State.inRange_flat, fun hb h => ?_, State.fails_of_not_inRange⟩
  have hl : s.locate addr = some (.buf addr.toNat) := by rw [State.locate_flat hb, if_pos h]
  refine ⟨hl, ?_, fun v => ?_⟩
  · rw [State.read8, hl]; rfl
  · rw [State.write8, hl]; rfl

/-- An address that a well-formed map computes does not wrap (R48). -/
theorem toNat_ofNat_of_lt_busSize {n : Nat} (h : n < busSize) : (BitVec.ofNat 16 n).toNat = n :=
  (BitVec.toNat_ofNat n 16).trans (Nat.mod_eq_of_lt h)

/-- A location read on the bus reads its byte of storage. -/
theorem State.read8_of_locate {s : State} {addr : Word} {l : Loc} (h : s.locate addr = some l) :
    s.read8 addr = some (s.mem.get l) := by
  rw [State.read8, h]; rfl

/-- Settles O45: the ranges are disjoint and do not wrap. -/
theorem windowShowsSelectedBank : Obligations.WindowShowsSelectedBank := by
  intro s hwf hb
  obtain ⟨-, hheader, hwindow, hdisjoint, -⟩ := hwf
  have hlen : headerLen = 80 ∧ bankLen = 16384 := ⟨rfl, rfl⟩
  refine ⟨fun i hi => ?_, fun j hj => ?_, fun x y l => resolve_injective s.cfg s.sel x y l⟩
  · have haddr : (BitVec.ofNat 16 (s.cfg.windowBase + i)).toNat = s.cfg.windowBase + i :=
      toNat_ofNat_of_lt_busSize (by omega)
    have hl := State.locate_window (s := s) (addr := BitVec.ofNat 16 (s.cfg.windowBase + i)) hb
      (by omega) (by omega) (by omega)
    rw [haddr, Nat.add_sub_cancel_left] at hl
    exact ⟨hl, State.read8_of_locate hl⟩
  · have haddr : (BitVec.ofNat 16 (s.cfg.headerBase + j)).toNat = s.cfg.headerBase + j :=
      toNat_ofNat_of_lt_busSize (by omega)
    have hl := State.locate_header (s := s) (addr := BitVec.ofNat 16 (s.cfg.headerBase + j)) hb (by omega) (by omega)
    rw [haddr, Nat.add_sub_cancel_left] at hl
    exact ⟨hl, State.read8_of_locate hl⟩

/-! ### Host indexed access (R47) -/

section
variable {s : State} (hb : s.cfg.busKind = .banked) {i : Nat} (v : Byte)
include hb

theorem hostApply_bankRead_of_lt (hi : i < bankLen) :
    hostApply (.bankRead i) s = (.byte (s.mem.get (.bank s.sel i)), s) :=
  (onBanked_of_banked hb _).trans (if_pos hi)

theorem hostApply_bankWrite_of_lt (hi : i < bankLen) :
    hostApply (.bankWrite i v) s = (.done, s.setLoc (.bank s.sel i) v) :=
  (onBanked_of_banked hb _).trans (if_pos hi)

theorem hostApply_headerRead_of_lt (hi : i < headerLen) :
    hostApply (.headerRead i) s = (.byte (s.mem.get (.header i)), s) :=
  (onBanked_of_banked hb _).trans (if_pos hi)

theorem hostApply_headerWrite_of_lt (hi : i < headerLen) :
    hostApply (.headerWrite i v) s = (.done, s.setLoc (.header i) v) :=
  (onBanked_of_banked hb _).trans (if_pos hi)

/-- On the banked bus an indexed access outside its bounds fails and changes nothing. -/
theorem onBanked_outOfBounds {n : Nat} (hi : n ≤ i) (ok : HostReply × State) :
    onBanked s (if i < n then ok else (.failed (.addressOutOfRange i), s)) = (.failed (.addressOutOfRange i), s) :=
  (onBanked_of_banked hb _).trans (if_neg (Nat.not_lt.mpr hi))

end

/-- Settles O48: inside its bounds an indexed access is a read or a write of one location. -/
theorem indexedAccessBounds : Obligations.IndexedAccessBounds := by
  intro s i v hs hb
  refine ⟨fun hi => ?_, fun hi => ?_, fun hi => ⟨onBanked_outOfBounds hb hi _, onBanked_outOfBounds hb hi _⟩,
    fun hi => ⟨onBanked_outOfBounds hb hi _, onBanked_outOfBounds hb hi _⟩⟩
  · rw [hostApply_bankWrite_of_lt hb v hi, hostApply_bankRead_of_lt (by exact hb) hi, State.setLoc_sel,
      State.setLoc_get_same hs]
  · rw [hostApply_headerWrite_of_lt hb v hi, hostApply_headerRead_of_lt (by exact hb) hi, State.setLoc_get_same hs]

/-- Settles O46: a bank's view reads the locations of that bank, and a write changes one location. -/
theorem banksAreIndependent : Obligations.BanksAreIndependent := by
  intro s i v id hs hb hi
  rw [hostApply_bankWrite_of_lt hb v hi]
  refine ⟨fun k => ?_, Memory.setBank_header ..⟩
  have hloc : Loc.bank s.sel i = Loc.bank id k ↔ id = s.sel ∧ k = i := by
    rw [Loc.bank.injEq, eq_comm, @eq_comm _ i]
  calc readCell (((s.setLoc (.bank s.sel i) v).selectBank id).activeView) k
      = (s.mem.set (.bank s.sel i) v).get (.bank id k) := rfl
    _ = if id = s.sel ∧ k = i then v else readCell (s.mem.bank id) k := by
        rw [Memory.get_set _ _ _ _ _ hs.2.1]
        simp only [hloc]
        rfl

/-! ### A store and the next fetch (R58) -/

/-- An instruction without operands is fetched as its opcode byte (R74). -/
theorem fetchInstr_of_op {s : State} {g : Tag} {i : Instr} (hc : s.cfg.WellFormed) (hp : tagPresent s.cfg g = true)
    (hg : g.form = .op i) (hb : s.read8 s.pc = some (s.cfg.opc.byteOf g)) :
    fetchInstr s = .ok (i, s.advance 1) := by
  simp only [fetchInstr, fetchByte_some .fetchOpcode s _ hb, formOf_byteOf s.cfg hc g hp, hg, fetchOperands]

/-- A step at the opcode byte of StoreAIndirect(BC) whose address is in range (42_store_indirect R100). -/
theorem step_storeAIndirectBC {s : State} {l : Loc} (hc : s.cfg.WellFormed)
    (hb : s.read8 s.pc = some s.cfg.opc.ldBcIndA) (hl : s.locate (s.get16 .bc) = some l) :
    step s = .next ((s.advance 1).setLoc l s.a) := by
  rw [step_of_fetchInstr_ok (fetchInstr_of_op (g := .storeAIndirectBC) hc rfl rfl hb)]
  exact State.storeByte_some (s.advance 1) _ _ _ hl

/-- A step at the opcode byte of Increment8(B) (43_inc_dec R106). -/
theorem step_increment8B {s : State} (hc : s.cfg.WellFormed) (hb : s.read8 s.pc = some s.cfg.opc.incB) :
    step s = .next { s with b := s.b + 1, pc := s.pc + 1 } :=
  step_of_fetchInstr_ok (fetchInstr_of_op (g := .increment8B) hc rfl rfl hb)

/-- Settles O25: the store reaches the address of the next opcode fetch. -/
theorem storeSeenByNextFetch : Obligations.StoreSeenByNextFetch := by
  intro s hs hb hbc hr
  obtain ⟨hbyte, -⟩ := hb
  obtain ⟨l, hl⟩ := Option.isSome_iff_exists.mp hr
  have hwf : s.cfg.WellFormed := hs.2.2
  have hadv : (s.advance 1).Inv := hs
  obtain ⟨hread, -, -⟩ := (s.advance 1).setLoc_storeFrame (s.pc + 1) l s.a hl hadv
  refine ⟨_, step_storeAIndirectBC hwf hbyte (hbc ▸ hl), rfl, hread, fun ha => ?_⟩
  have hpc : s.pc + 1 + 1 = s.pc + 2 := by rw [BitVec.add_assoc]; rfl
  have hinc := step_increment8B (s := (s.advance 1).setLoc l s.a) hwf (hread.trans (congrArg some ha))
  rw [hinc, ← hpc]
  rfl

end Sys2Proof.Machine

/-! Proofs of family 30_encoding: decoding and encoding (R73 to R77, R80), the fetches (R71, R72), the step (R70, R79)
and the effect table (R78). -/

namespace Sys2Proof

/-! ### Operand bytes (R72, R74, R76) -/

/-- The operand bytes `ops`, in memory order, complete the format to the instruction `i`: no byte short, none over. -/
inductive Form.Completes : Form → List Byte → Instr → Prop
  | op (i : Instr) : Completes (.op i) [] i
  | opD8 (k : Byte → Instr) (v : Byte) : Completes (.opD8 k) [v] (k v)
  | opD16 (k : Word → Instr) (lo hi : Byte) : Completes (.opD16 k) [lo, hi] (k (mkWord hi lo))

@[simp] theorem wordBytes_mkWord (hi lo : Byte) : wordBytes (mkWord hi lo) = [lo, hi] := by
  rw [wordBytes, Machine.hiByte_mkWord, Machine.loByte_mkWord]

theorem Form.completes_wordBytes (k : Word → Instr) (w : Word) : (Form.opD16 k).Completes (wordBytes w) (k w) := by
  have h := Form.Completes.opD16 k (loByte w) (hiByte w)
  rwa [Machine.mkWord_hi_lo] at h

theorem completeForm_of_completes {f : Form} {ops : List Byte} {i : Instr} (h : f.Completes ops i) (b : Byte)
    (rest : List Byte) : completeForm b f (ops ++ rest) = .ok (i, rest) := by
  cases h with
  | op i => rfl
  | opD8 k v => rfl
  | opD16 k lo hi => rfl

theorem completes_of_completeForm {b : Byte} {f : Form} {bs rest : List Byte} {i : Instr}
    (h : completeForm b f bs = .ok (i, rest)) : ∃ ops, bs = ops ++ rest ∧ f.Completes ops i := by
  cases f with
  | op j => cases h; exact ⟨[], rfl, .op i⟩
  | opD8 k =>
    match bs, h with
    | v :: _, h => cases h; exact ⟨[v], rfl, .opD8 k v⟩
  | opD16 k =>
    match bs, h with
    | lo :: hi :: _, h => cases h; exact ⟨[lo, hi], rfl, .opD16 k lo hi⟩

/-- Decoding answers an instruction exactly where the bytes after the first begin with operands that complete the first
byte's format to it. -/
theorem decode_ok_iff {c : Config} {bs rest : List Byte} {i : Instr} :
    decode c bs = .ok (i, rest) ↔ ∃ b ops, bs = b :: (ops ++ rest) ∧ (formOf c b).Completes ops i := by
  constructor
  · intro h
    cases bs with
    | nil => cases h
    | cons b bs =>
      obtain ⟨ops, rfl, hf⟩ := completes_of_completeForm h
      exact ⟨b, ops, rfl, hf⟩
  · rintro ⟨b, ops, rfl, hf⟩
    exact completeForm_of_completes hf b rest

/-! ### Encoding and decoding (R73, R74, R77, R80) -/

/-- What a tag's format completes to is encoded as the tag's opcode byte and the same operand bytes, and is well formed
exactly where the tag is present. -/
theorem encode_of_form_completes (c : Config) {g : Tag} {ops : List Byte} {i : Instr} (h : g.form.Completes ops i) :
    encode c i = c.opc.byteOf g :: ops ∧ i.wellFormed c = tagPresent c g := by
  cases g with
  | loadImmediate16BC | absoluteJump =>
    cases h
    exact ⟨congrArg _ (wordBytes_mkWord ..), rfl⟩
  | loadImmediate8HLind =>
    cases h
    exact ⟨rfl, by simp [Instr.wellFormed, tagPresent]⟩
  | _ =>
    cases h
    exact ⟨rfl, rfl⟩

/-- Every instruction but a miss is what its tag's format completes some operand bytes to. -/
theorem form_completes_or_miss (i : Instr) : (∃ ops, i.tag.form.Completes ops i) ∨ ∃ n, i = .noOpMiss n := by
  cases i with
  | noOpMiss n => exact .inr ⟨n, rfl⟩
  | loadImmediate16BC w | absoluteJump w => exact .inl ⟨_, Form.completes_wordBytes _ w⟩
  | loadImmediate8B v | loadImmediate8C v | loadImmediate8D v | loadImmediate8H v | loadImmediate8L v
  | loadImmediate8A v | loadImmediate8HLind v => exact .inl ⟨[v], .opD8 _ v⟩
  | noOp | storeAIndirectBC | increment16BC | increment8B | decrement8B => exact .inl ⟨[], .op _⟩

/-- A byte of no tag has the one-byte format of its own miss (R80). -/
theorem formOf_of_miss {c : Config} {b : Byte} (h : lookupTag c b = none) : formOf c b = .op (.noOpMiss b) := by
  simp only [formOf, h]

theorem formOf_of_tag {c : Config} {b : Byte} {g : Tag} (h : lookupTag c b = some g) : formOf c b = g.form := by
  simp only [formOf, h]

theorem formOf_completes_of_wellFormed {c : Config} {i : Instr} (hc : c.WellFormed) (hi : i.wellFormed c = true) :
    ∃ b ops, encode c i = b :: ops ∧ (formOf c b).Completes ops i := by
  rcases form_completes_or_miss i with ⟨ops, hf⟩ | ⟨n, rfl⟩
  · obtain ⟨henc, hwf⟩ := encode_of_form_completes c hf
    have hform := formOf_byteOf c hc i.tag (hwf ▸ hi)
    exact ⟨_, ops, henc, hform ▸ hf⟩
  · have hmiss : lookupTag c n = none := (lookupTag_none c n).2 (of_decide_eq_true hi)
    exact ⟨n, [], rfl, formOf_of_miss hmiss ▸ .op _⟩

theorem encode_of_formOf_completes {c : Config} {b : Byte} {ops : List Byte} {i : Instr}
    (h : (formOf c b).Completes ops i) : i.wellFormed c = true ∧ encode c i = b :: ops := by
  cases hl : lookupTag c b with
  | none =>
    rw [formOf_of_miss hl] at h
    cases h
    exact ⟨decide_eq_true ((lookupTag_none c b).1 hl), rfl⟩
  | some g =>
    rw [formOf_of_tag hl] at h
    obtain ⟨hb, hp⟩ := byteOf_of_lookupTag c b g hl
    obtain ⟨henc, hwf⟩ := encode_of_form_completes c h
    exact ⟨hwf.trans hp, hb ▸ henc⟩

/-- Settles O1: the encoding is an opcode byte and operands that complete that byte's format to the instruction. -/
theorem decodeOfEncode : Obligations.DecodeOfEncode := by
  intro c i rest hc hi
  obtain ⟨b, ops, henc, hf⟩ := formOf_completes_of_wellFormed hc hi
  exact decode_ok_iff.2 ⟨b, ops, congrArg (· ++ rest) henc, hf⟩

/-- Settles O2: the bytes that decoding consumes complete the format of a byte to the instruction. -/
theorem encodeOfDecode : Obligations.EncodeOfDecode := by
  intro c bs i rest h
  obtain ⟨b, ops, rfl, hf⟩ := decode_ok_iff.1 h
  obtain ⟨hwf, henc⟩ := encode_of_formOf_completes hf
  exact ⟨hwf, congrArg (· ++ rest) henc⟩

theorem decodeTag_of_tag {c : Config} {b : Byte} {g : Tag} (h : lookupTag c b = some g) : decodeTag c b = g := by
  rw [decodeTag, h]; rfl

theorem decodeTag_of_miss {c : Config} {b : Byte} (h : lookupTag c b = none) : decodeTag c b = .noOp := by
  rw [decodeTag, h]; rfl

/-- Settles O3: the lookup finds the rows of the map and misses every other byte; 0xC3 is the jump's row. -/
theorem decodeTagIsTotal : Obligations.DecodeTagIsTotal := by
  intro c hc
  have hjump : (0xC3, Tag.absoluteJump) ∈ activeRows c := (mem_activeRows ..).2 ⟨hc.1.2.2.symm, rfl⟩
  refine ⟨fun b g hr => decodeTag_of_tag (lookupTag_of_row c hc b g hr), fun b hr => ?_,
    decodeTag_of_tag (lookupTag_of_row c hc _ _ hjump), decodeTag_of_miss (lookupTag_ff c hc)⟩
  exact decodeTag_of_miss (Option.isNone_iff_eq_none.1 ((isMiss_iff c b).2 hr))

end Sys2Proof

namespace Sys2Proof.Machine

/-! ### The step (R70, R79) -/

theorem fetchInstr_of_fetchByte_ok {s t : State} {b : Byte} (h : fetchByte .fetchOpcode s = .ok (b, t)) :
    fetchInstr s = fetchOperands (formOf s.cfg b) t := by
  simp only [fetchInstr, h]

theorem fetchInstr_of_fetchByte_error {s : State} {f : Fault} (h : fetchByte .fetchOpcode s = .error f) :
    fetchInstr s = .error f := by
  simp only [fetchInstr, h]

theorem executeTag_of_fetchOperands_ok {g : Tag} {s t : State} {i : Instr}
    (h : fetchOperands g.form s = .ok (i, t)) : executeTag g s = exec i t := by
  simp only [executeTag, h]

theorem executeTag_of_fetchOperands_error {g : Tag} {s : State} {f : Fault}
    (h : fetchOperands g.form s = .error f) : executeTag g s = .fault f := by
  simp only [executeTag, h]

/-- After the opcode fetch a step is `execute` of the byte's tag; a miss runs as NoOp (40_noop R91). -/
theorem step_eq_executeTag {s t : State} {b : Byte} (h : fetchByte .fetchOpcode s = .ok (b, t)) :
    step s = executeTag (decodeTag s.cfg b) t := by
  have hfetch := fetchInstr_of_fetchByte_ok h
  cases hl : lookupTag s.cfg b with
  | none =>
    rw [formOf_of_miss hl] at hfetch
    rw [decodeTag_of_miss hl, step_of_fetchInstr_ok hfetch]
    rfl
  | some g =>
    rw [formOf_of_tag hl] at hfetch
    rw [decodeTag_of_tag hl]
    cases hops : fetchOperands g.form t with
    | error f => rw [executeTag_of_fetchOperands_error hops, step_of_fetchInstr_error (hfetch.trans hops)]
    | ok r => rw [executeTag_of_fetchOperands_ok hops, step_of_fetchInstr_ok (hfetch.trans hops)]

/-- Settles O6: after the opcode fetch the step is `execute` of the byte's tag, and a fault reports the old state. -/
theorem stepIsFetchDecodeExecute : Obligations.StepIsFetchDecodeExecute :=
  fun _ => ⟨fun _ _ => step_eq_executeTag,
    fun _ h => step_of_fetchInstr_error (fetchInstr_of_fetchByte_error h), fun _ => hostApply_step_of_fault⟩

@[simp] theorem State.advance_bytesAt (s : State) (n : Nat) (addr : Word) (bs : List Byte) :
    (s.advance n).BytesAt addr bs ↔ s.BytesAt addr bs := by
  induction bs generalizing addr with
  | nil => exact Iff.rfl
  | cons b rest ih => exact and_congr_right fun _ => ih (addr + 1)

/-- Operand bytes at PC complete the format there. -/
theorem fetchOperands_of_completes {f : Form} {ops : List Byte} {i : Instr} {s : State} (h : f.Completes ops i)
    (hops : s.BytesAt s.pc ops) : fetchOperands f s = .ok (i, s.advance ops.length) := by
  cases h with
  | op i => simp [fetchOperands, State.advance]
  | opD8 k v =>
    obtain ⟨hv, -⟩ := hops
    simp only [fetchOperands, fetchByte_some .fetchOperand s v hv]
    rfl
  | opD16 k lo hi =>
    obtain ⟨hlo, hhi, -⟩ := hops
    simp only [fetchOperands, fetchWord_some s lo hi hlo hhi]
    rfl

/-- The fetch at PC answers what the bytes there decode to, with PC past them. -/
theorem fetchInstr_of_decode {s : State} {bs : List Byte} {i : Instr} (hbs : s.BytesAt s.pc bs)
    (h : decode s.cfg bs = .ok (i, [])) : fetchInstr s = .ok (i, s.advance bs.length) := by
  obtain ⟨b, ops, rfl, hf⟩ := decode_ok_iff.1 h
  rw [List.append_nil] at hbs ⊢
  obtain ⟨hb, hops⟩ := hbs
  rw [fetchInstr_of_fetchByte_ok (fetchByte_some .fetchOpcode s b hb),
    fetchOperands_of_completes hf ((s.advance_bytesAt 1 _ ops).2 hops), State.advance_advance, Nat.add_comm,
    List.length_cons]

/-- Settles O5: the fetch of a step answers the decoded instruction with PC past its bytes. -/
theorem stepRunsDecoded : Obligations.StepRunsDecoded :=
  fun _ _ _ hbs h => step_of_fetchInstr_ok (fetchInstr_of_decode hbs h)

/-! ### The effect table (R78) -/

theorem fetchOperands_opD8_ok {s t : State} {v : Byte} (k : Byte → Instr)
    (h : fetchByte .fetchOperand s = .ok (v, t)) : fetchOperands (.opD8 k) s = .ok (k v, t) := by
  simp only [fetchOperands, h]

theorem fetchOperands_opD16_ok {s t : State} {w : Word} (k : Word → Instr) (h : fetchWord s = .ok (w, t)) :
    fetchOperands (.opD16 k) s = .ok (k w, t) := by
  simp only [fetchOperands, h]

theorem executeTag_of_opD8 {g : Tag} (k : Byte → Instr) {s t : State} {v : Byte} (hg : g.form = .opD8 k)
    (h : fetchByte .fetchOperand s = .ok (v, t)) : executeTag g s = exec (k v) t :=
  executeTag_of_fetchOperands_ok (hg ▸ fetchOperands_opD8_ok k h)

theorem executeTag_of_opD16 {g : Tag} (k : Word → Instr) {s t : State} {w : Word} (hg : g.form = .opD16 k)
    (h : fetchWord s = .ok (w, t)) : executeTag g s = exec (k w) t :=
  executeTag_of_fetchOperands_ok (hg ▸ fetchOperands_opD16_ok k h)

theorem State.storeByte_of_write8_some {s t : State} {addr : Word} {v : Byte} (h : s.write8 addr v = some t) :
    s.storeByte addr v = .next t := by
  simp only [State.storeByte, h]

theorem State.storeByte_of_write8_none {s : State} {addr : Word} {v : Byte} (h : s.write8 addr v = none) :
    s.storeByte addr v = .fault (.addressOutOfRange addr .store) := by
  simp only [State.storeByte, h, outOfRange]

/-- Only the optional tag can be outside the closed set, under mode `absent`. -/
theorem tagPresent_eq_false_iff (c : Config) (g : Tag) :
    tagPresent c g = false ↔ g = .loadImmediate8HLind ∧ c.hlIndMode = .absent := by
  rw [tagPresent, decide_eq_false_iff_not, not_or, not_not, not_not]

/-- Settles O10: `execute` fetches the operands of its tag's format and runs the instruction they complete. -/
theorem effectTable : Obligations.EffectTable :=
  fun s => ⟨rfl,
    fun _ _ h => ⟨executeTag_of_opD16 .loadImmediate16BC rfl h, executeTag_of_opD16 .absoluteJump rfl h⟩,
    fun _ => State.storeByte_of_write8_some, State.storeByte_of_write8_none, rfl, rfl, rfl,
    fun _ _ h => ⟨executeTag_of_opD8 .loadImmediate8A rfl h, executeTag_of_opD8 .loadImmediate8B rfl h,
      executeTag_of_opD8 .loadImmediate8C rfl h, executeTag_of_opD8 .loadImmediate8D rfl h,
      executeTag_of_opD8 .loadImmediate8H rfl h, executeTag_of_opD8 .loadImmediate8L rfl h⟩,
    tagPresent_eq_false_iff s.cfg⟩

/-! ### The fetches (R71, R72) -/

theorem hostApply_fetchByte_of_ok {s t : State} {v : Byte} (h : fetchByte .fetchOperand s = .ok (v, t)) :
    hostApply .fetchByte s = (.byte v, t) := by
  simp only [hostApply, h]

/-- A failing host call leaves the state (70_reset_and_hazards R156). -/
theorem hostApply_fetchByte_of_error {s : State} {f : Fault} (h : fetchByte .fetchOperand s = .error f) :
    hostApply .fetchByte s = (.failed (.fault f), s) := by
  simp only [hostApply, h]

/-- A failing host call leaves the state (70_reset_and_hazards R156). -/
theorem hostApply_fetchWord_of_error {s : State} {f : Fault} (h : fetchWord s = .error f) :
    hostApply .fetchWord s = (.failed (.fault f), s) := by
  simp only [hostApply, h]

/-- Settles O49: `fetch_byte` is a read and then the advance of PC by one. -/
theorem fetchByteReadsThenAdvances : Obligations.FetchByteReadsThenAdvances := by
  refine fun s => ⟨fun k v h => ?_, fun h => ?_, fun h => ?_⟩
  · exact ⟨fetchByte_some k s v h, hostApply_fetchByte_of_ok (fetchByte_some _ s v h)⟩
  · exact ⟨fun k => fetchByte_none k s h, congrArg Prod.snd (hostApply_fetchByte_of_error (fetchByte_none _ s h))⟩
  · rw [h]; rfl

/-- Settles O50: the second `fetch_byte` reads at PC + 1, and the two advances of PC add up. -/
theorem fetchWordIsTwoFetchBytes : Obligations.FetchWordIsTwoFetchBytes := by
  refine fun s => ⟨fun lo hi t u hlo hhi => ?_, fun f hlo => ?_, fun lo t f hlo hhi => ?_,
    fun f h => congrArg Prod.snd (hostApply_fetchWord_of_error h)⟩
  · obtain ⟨hreadLo, rfl⟩ := fetchByte_ok hlo
    obtain ⟨hreadHi, rfl⟩ := fetchByte_ok hhi
    rw [State.advance_advance]
    exact ⟨fetchWord_some s lo hi hreadLo hreadHi, rfl⟩
  · obtain ⟨hreadLo, rfl⟩ := fetchByte_error hlo
    exact fetchWord_none_low s hreadLo
  · obtain ⟨hreadLo, rfl⟩ := fetchByte_ok hlo
    obtain ⟨hreadHi, rfl⟩ := fetchByte_error hhi
    exact fetchWord_none_high s lo hreadLo hreadHi

end Sys2Proof.Machine

/-! Proofs of family 40_noop: NoOp (R90) and the decode miss (R91, R92). -/

namespace Sys2Proof.Machine

/-- Settles O17: both effects are the identity (R90, R91). -/
theorem noOpCompletes : Obligations.NoOpCompletes :=
  fun _ _ => ⟨rfl, rfl⟩

/-- NoOp and a decode miss are one byte long and run alike: `decode` gives both the no-operation tag (R73, R91). -/
theorem step_of_decodeTag_noOp {s : State} {b : Byte} (hb : s.read8 s.pc = some b)
    (hd : decodeTag s.cfg b = .noOp) : step s = .next (s.advance 1) := by
  rw [step_eq_executeTag (fetchByte_some .fetchOpcode s b hb), hd,
    executeTag_of_fetchOperands_ok (g := .noOp) (i := .noOp) rfl]
  exact (noOpCompletes (s.advance 1) b).1

/-- The tag that NoOp and a miss share does not tell them apart; the lookup that `miss` reports does (R92, R143). -/
theorem missOutput_eq_isNone {s : State} {b : Byte} (hb : s.read8 s.pc = some b) :
    missOutput s = (lookupTag s.cfg b).isNone := by
  simp only [missOutput, hb, isMiss]

/-- Settles O18: NoOp's opcode byte has the no-operation tag by its row of the map. -/
theorem noOpStep : Obligations.NoOpStep := by
  intro s hc ⟨hb, _⟩
  have htag : lookupTag s.cfg s.cfg.opc.nop = some .noOp := lookupTag_byteOf s.cfg hc .noOp rfl
  refine ⟨step_of_decodeTag_noOp hb (decodeTag_of_tag htag), ?_⟩
  rw [missOutput_eq_isNone hb, htag]
  rfl

/-- Settles O19: an unmapped byte has the no-operation tag because the lookup finds no row for it. -/
theorem missStep : Obligations.MissStep := by
  intro s n hb hn
  have hmiss : lookupTag s.cfg n = none := (lookupTag_none s.cfg n).2 hn
  refine ⟨step_of_decodeTag_noOp hb (decodeTag_of_miss hmiss), ?_,
    fun hc => (lookupTag_none s.cfg 0xFF).1 (lookupTag_ff s.cfg hc)⟩
  rw [missOutput_eq_isNone hb, hmiss]
  rfl

end Sys2Proof.Machine

/-! Proofs of family 41_load_immediate16: LoadImmediate16(BC) (R95). -/

namespace Sys2Proof.Machine

/-- A step at the encoding of a well-formed instruction runs it with PC past its bytes (R70, R79). -/
theorem step_of_bytesAt_encode {s : State} {i : Instr} (hc : s.cfg.WellFormed) (hi : i.wellFormed s.cfg = true)
    (hbs : s.BytesAt s.pc (encode s.cfg i)) : step s = exec i (s.advance (encode s.cfg i).length) := by
  have hdecode := decodeOfEncode s.cfg i [] hc hi
  rw [List.append_nil] at hdecode
  exact stepRunsDecoded s _ i hbs hdecode

/-- The encoding of LoadImmediate16(BC) has the low half of its operand first (R76, R95). -/
theorem encode_loadImmediate16BC_mkWord (c : Config) (hi lo : Byte) :
    encode c (.loadImmediate16BC (mkWord hi lo)) = [c.opc.ldBcD16, lo, hi] :=
  congrArg (c.opc.ldBcD16 :: ·) (wordBytes_mkWord hi lo)

/-- The effect of LoadImmediate16(BC) on an operand given by its halves (R95, R23). -/
theorem exec_loadImmediate16BC_mkWord (s : State) (hi lo : Byte) :
    exec (.loadImmediate16BC (mkWord hi lo)) s = .next { s with b := hi, c := lo } := by
  have hset : s.set16 .bc (mkWord hi lo) = { s with b := hi, c := lo } := by
    rw [State.set16_fields, hiByte_mkWord, loByte_mkWord]
  exact congrArg Host.Outcome.next hset

/-- Settles O21: the three bytes are the encoding of the instruction whose operand has the halves `hi` and `lo`. -/
theorem loadImmediate16Step : Obligations.LoadImmediate16Step := by
  intro s lo hi hc hbs
  have henc := encode_loadImmediate16BC_mkWord s.cfg hi lo
  have hstep := step_of_bytesAt_encode (i := .loadImmediate16BC (mkWord hi lo)) hc rfl (henc ▸ hbs)
  rw [henc, exec_loadImmediate16BC_mkWord] at hstep
  exact hstep

/-- Settles O20: the instruction is one write of the pair BC, which is a write of its two halves. -/
theorem loadImmediate16Completes : Obligations.LoadImmediate16Completes :=
  fun s w => ⟨s.set16 .bc w, rfl, s.get16_set16_of_ne_af w (by decide), hiByte_toNat w, loByte_toNat w,
    s.set8_set8_regsFrame .b .c _ _,
    memFrame_of_eq (s.set16_mem .bc w) (s.set16_cfg .bc w) (s.set16_sel .bc w),
    s.set16_pc_of_ne w (by decide)⟩

end Sys2Proof.Machine

/-! Proofs of family 42_store_indirect: StoreAIndirect(BC) (R100). -/

namespace Sys2Proof.Machine

/-- A storage write changes no register (R54). -/
theorem State.setLoc_regsFrame (s : State) (l : Loc) (v : Byte) : RegsFrame [] s (s.setLoc l v) :=
  ⟨fun r _ => s.setLoc_get8 r v l, s.setLoc_sp v l, s.setLoc_sel v l, s.setLoc_cfg v l⟩

/-- StoreAIndirect(BC) where BC is in range is one write of A (R100). -/
theorem exec_storeAIndirectBC {s : State} {l : Loc} (hl : s.locate (s.pairAddress .bc) = some l) :
    exec .storeAIndirectBC s = .next (s.setLoc l s.a) :=
  s.storeByte_some _ s.a l hl

/-- Settles O22: the instruction is one write of the location that BC reaches. -/
theorem storeCompletes : Obligations.StoreCompletes :=
  fun s l hl => ⟨s.setLoc l s.a, exec_storeAIndirectBC hl, s.setLoc_regsFrame l s.a, s.setLoc_pc s.a l,
    s.setLoc_storeFrame _ l s.a hl⟩

/-- Settles O24: the fetch moves PC past the one opcode byte, and the store is made from there. -/
theorem storeStep : Obligations.StoreStep :=
  fun _ _ hc ⟨hb, _⟩ hl => step_storeAIndirectBC hc hb hl

end Sys2Proof.Machine

/-! Proofs of family 43_inc_dec: Increment16(BC) (R105), Increment8(B) (R106) and Decrement8(B) (R107), and what the last
two do in sequence (R108). -/

namespace Sys2Proof.Machine

/-! ### The carry from C into B (R105) -/

/-- The low half of an incremented pair is the incremented low half. -/
theorem loByte_mkWord_add_one (hi lo : Byte) : loByte (mkWord hi lo + 1) = lo + 1 := by
  apply BitVec.eq_of_toNat_eq
  rw [loByte_toNat, word_add_one_toNat, mkWord_toNat, byte_add_one_toNat]
  omega

/-- The high half of an incremented pair takes the carry out of the low half. -/
theorem hiByte_mkWord_add_one (hi lo : Byte) :
    hiByte (mkWord hi lo + 1) = if lo = 0xFF then hi + 1 else hi := by
  have hhi := hi.isLt
  have hlo := lo.isLt
  apply BitVec.eq_of_toNat_eq
  rw [hiByte_toNat, word_add_one_toNat, mkWord_toNat]
  split
  · next hff =>
    have hmax : lo.toNat = 255 := congrArg BitVec.toNat hff
    rw [byte_add_one_toNat]
    omega
  · next hff =>
    have hlt : lo.toNat ≠ 255 := fun h => hff (BitVec.eq_of_toNat_eq h)
    omega

/-- An increment of BC, half by half. -/
theorem State.inc16_bc (s : State) :
    s.inc16 .bc = { s with b := if s.c = 0xFF then s.b + 1 else s.b, c := s.c + 1 } := by
  rw [State.inc16, State.set16_fields, State.get16, hiByte_mkWord_add_one, loByte_mkWord_add_one]

/-! ### The steps -/

/-- A step at the opcode byte of Increment16(BC) (R105). -/
theorem step_increment16BC {s : State} (hc : s.cfg.WellFormed) (hb : s.read8 s.pc = some s.cfg.opc.incBc) :
    step s = .next { s with b := if s.c = 0xFF then s.b + 1 else s.b, c := s.c + 1, pc := s.pc + 1 } := by
  rw [step_of_fetchInstr_ok (fetchInstr_of_op (g := .increment16BC) hc rfl rfl hb)]
  exact congrArg Host.Outcome.next (s.advance 1).inc16_bc

/-- A step at the opcode byte of Decrement8(B) (R107). -/
theorem step_decrement8B {s : State} (hc : s.cfg.WellFormed) (hb : s.read8 s.pc = some s.cfg.opc.decB) :
    step s = .next { s with b := s.b - 1, pc := s.pc + 1 } :=
  step_of_fetchInstr_ok (fetchInstr_of_op (g := .decrement8B) hc rfl rfl hb)

/-- Settles O27: each step runs its instruction one byte past the opcode, and the pair's increment goes half by half. -/
theorem incDecStep : Obligations.IncDecStep :=
  fun _ hc => ⟨fun ⟨hb, _⟩ => step_increment16BC hc hb, fun ⟨hb, _⟩ => step_increment8B hc hb,
    fun ⟨hb, _⟩ => step_decrement8B hc hb⟩

/-- A run takes its first step and goes on from there. -/
theorem run_succ_of_next {s t : State} (n : Nat) (h : step s = .next t) : core.run (n + 1) s = core.run n t := by
  have hcore : core.step s = .next t := h
  simp only [Host.Core.run, hcore]

/-- Settles O28: the second step reads its opcode byte where the first left PC, and B + 1 - 1 is B. -/
theorem incThenDecRestores : Obligations.IncThenDecRestores := by
  intro s hc ⟨hinc, hdec, _⟩
  have hfirst := step_increment8B hc hinc
  have hsecond := step_decrement8B (s := { s with b := s.b + 1, pc := s.pc + 1 }) hc hdec
  have hb : s.b + 1 - 1 = s.b := BitVec.add_sub_cancel s.b 1
  have hpc : s.pc + 1 + 1 = s.pc + 2 := BitVec.add_assoc s.pc 1 1
  rw [run_succ_of_next 1 hfirst, run_succ_of_next 0 hsecond, hb, hpc]
  rfl

/-! ### The instructions -/

/-- An 8-bit register write leaves storage and what the bus shows of it alone. -/
theorem State.set8_memFrame (s : State) (r : Reg8) (v : Byte) : MemFrame s (s.set8 r v) :=
  memFrame_of_eq (s.set8_mem r v) (s.set8_cfg r v) (s.set8_sel r v)

/-- A 16-bit register write leaves storage and what the bus shows of it alone. -/
theorem State.set16_memFrame (s : State) (p : Reg16) (w : Word) : MemFrame s (s.set16 p w) :=
  memFrame_of_eq (s.set16_mem p w) (s.set16_cfg p w) (s.set16_sel p w)

/-- Settles O26: each instruction is one increment or decrement of 10_state, whose result is modular (R25, R26). -/
theorem incDecComplete : Obligations.IncDecComplete := by
  intro s
  obtain ⟨hmod16, -⟩ := incDec16Modular s .bc
  obtain ⟨hinc16, -⟩ := hmod16 (by decide)
  obtain ⟨hmod8, -, hincRegs, hdecRegs, hincPc, hdecPc, -⟩ := incDec8Modular s .b
  obtain ⟨hinc, hdec⟩ := hmod8 (by decide)
  exact ⟨⟨s.inc16 .bc, rfl, hinc16, s.set8_set8_regsFrame .b .c _ _, s.set16_memFrame .bc _,
      s.set16_pc_of_ne _ (by decide)⟩,
    ⟨s.inc8 .b, rfl, hinc, hincRegs, s.set8_memFrame .b _, hincPc⟩,
    ⟨s.dec8 .b, rfl, hdec, hdecRegs, s.set8_memFrame .b _, hdecPc⟩⟩

end Sys2Proof.Machine

/-! Proofs of family 44_load_immediate8: the six 8-bit immediate loads (R110 to R115, R118) and the optional (HL)-form
in each of its modes (R116). -/

namespace Sys2Proof

/-- Under `absent` the optional form's byte is no mapped byte: the opcode bytes are distinct, its own included (R77,
R116). -/
theorem ldHLindD8_notMem_mappedBytes {c : Config} (hc : c.WellFormed) (hm : c.hlIndMode = .absent) :
    c.opc.ldHLindD8 ∉ c.mappedBytes := by
  obtain ⟨⟨hnodup, -, -⟩, -⟩ := hc
  have hmapped : c.mappedBytes = c.opc.required := by rw [Config.mappedBytes, hm]
  rw [hmapped]
  exact fun hmem => List.disjoint_of_nodup_append hnodup hmem (List.mem_singleton_self _)

end Sys2Proof

namespace Sys2Proof.Machine

/-! ### The six loads -/

/-- An instruction that is one 8-bit write, of a register other than FLAGS, loads that register (R21, R118). -/
theorem loadsRegister_of_exec_set8 {i : Instr} {s : State} {r : Reg8} {v : Byte} (hr : r ≠ .flags)
    (h : exec i s = .next (s.set8 r v)) : LoadsRegister i s r v :=
  ⟨s.set8 r v, h, s.get8_set8_same v hr, s.set8_regsFrame r v, s.set8_memFrame r v, s.set8_pc r v⟩

/-- Settles O29: each instruction is one 8-bit write of its register. -/
theorem loadImmediate8Completes : Obligations.LoadImmediate8Completes := by
  refine fun s v => ⟨?_, ?_, ?_, ?_, ?_, ?_⟩
  all_goals exact loadsRegister_of_exec_set8 (by decide) rfl

/-- Settles O30: the two bytes are the encoding of the load, which runs with PC past both. -/
theorem loadImmediate8Step : Obligations.LoadImmediate8Step :=
  fun _ v hc =>
    ⟨step_of_bytesAt_encode (i := .loadImmediate8A v) hc rfl,
      step_of_bytesAt_encode (i := .loadImmediate8B v) hc rfl,
      step_of_bytesAt_encode (i := .loadImmediate8C v) hc rfl,
      step_of_bytesAt_encode (i := .loadImmediate8D v) hc rfl,
      step_of_bytesAt_encode (i := .loadImmediate8H v) hc rfl,
      step_of_bytesAt_encode (i := .loadImmediate8L v) hc rfl⟩

/-! ### The optional (HL)-form: its effect in each mode (R116) -/

section
variable (s : State) (v : Byte)

theorem exec_loadImmediate8HLind_of_absent (hm : s.cfg.hlIndMode = .absent) :
    exec (.loadImmediate8HLind v) s = .next s := by
  simp only [exec, execLoadImmediate8HLind, hm]

/-- HL receives the operand zero-extended: the high half is 0 (R116). -/
theorem exec_loadImmediate8HLind_of_overwritePair (hm : s.cfg.hlIndMode = .overwritePair) :
    exec (.loadImmediate8HLind v) s = .next ((s.set8 .h 0).set8 .l v) := by
  simp only [exec, execLoadImmediate8HLind, hm, State.set16, hiByte_mkWord, loByte_mkWord]

theorem exec_loadImmediate8HLind_of_memoryWrite (hm : s.cfg.hlIndMode = .memoryWrite) :
    exec (.loadImmediate8HLind v) s = s.storeByte (s.get16 .hl) v := by
  simp only [exec, execLoadImmediate8HLind, hm, State.pairAddress]

end

/-- Settles O31: by mode the form is a write of H and L, a store at HL, or nothing. -/
theorem loadImmediate8HLindCompletes : Obligations.LoadImmediate8HLindCompletes := by
  refine fun s v => ⟨fun hm => ?_, fun hm l hl => ?_, fun hm hl => ?_, exec_loadImmediate8HLind_of_absent s v⟩
  · exact ⟨_, exec_loadImmediate8HLind_of_overwritePair s v hm, rfl, rfl, s.set8_set8_regsFrame .h .l 0 v,
      memFrame_of_eq rfl rfl rfl, rfl⟩
  · exact ⟨s.setLoc l v, (exec_loadImmediate8HLind_of_memoryWrite s v hm).trans (s.storeByte_some _ v l hl),
      s.setLoc_regsFrame l v, s.setLoc_pc v l, s.setLoc_storeFrame _ l v hl⟩
  · exact (exec_loadImmediate8HLind_of_memoryWrite s v hm).trans (s.storeByte_none _ v hl)

/-! ### The optional (HL)-form: its steps -/

/-- The opcode byte of a present tag is no miss (R80, R143). -/
theorem missOutput_of_byteOf {s : State} {g : Tag} (hc : s.cfg.WellFormed) (hp : tagPresent s.cfg g = true)
    (hb : s.read8 s.pc = some (s.cfg.opc.byteOf g)) : missOutput s = false := by
  rw [missOutput_eq_isNone hb, lookupTag_byteOf s.cfg hc g hp]
  rfl

/-- Where the optional form is present, a step at its byte runs it with PC past the operand, and is no miss. -/
theorem step_loadImmediate8HLind {s : State} {v : Byte} (hc : s.cfg.WellFormed) (hm : s.cfg.hlIndMode ≠ .absent)
    (hbs : s.BytesAt s.pc [s.cfg.opc.ldHLindD8, v]) :
    step s = exec (.loadImmediate8HLind v) (s.advance 2) ∧ missOutput s = false :=
  ⟨step_of_bytesAt_encode (i := .loadImmediate8HLind v) hc (decide_eq_true hm) hbs,
    missOutput_of_byteOf (g := .loadImmediate8HLind) hc (decide_eq_true (.inr hm)) hbs.1⟩

/-- Settles O32: under `absent` the byte is unmapped, hence a miss; otherwise the form runs with PC past two bytes. -/
theorem loadImmediate8HLindStep : Obligations.LoadImmediate8HLindStep := by
  intro s v hc hbs
  have hb : s.read8 s.pc = some s.cfg.opc.ldHLindD8 := hbs.1
  refine ⟨fun hm => ?_, fun hm => ?_, fun hm l hl => ?_⟩
  · obtain ⟨hstep, hmiss, -⟩ := missStep s _ hb (ldHLindD8_notMem_mappedBytes hc hm)
    exact ⟨hstep, hmiss⟩
  · obtain ⟨hstep, hmiss⟩ := step_loadImmediate8HLind hc (by simp [hm]) hbs
    exact ⟨hstep.trans (exec_loadImmediate8HLind_of_overwritePair (s.advance 2) v hm), hmiss⟩
  · obtain ⟨hstep, hmiss⟩ := step_loadImmediate8HLind hc (by simp [hm]) hbs
    have hexec := exec_loadImmediate8HLind_of_memoryWrite (s.advance 2) v hm
    exact ⟨hstep.trans (hexec.trans ((s.advance 2).storeByte_some _ v l hl)), hmiss⟩

end Sys2Proof.Machine

/-! Proofs of family 45_jump: AbsoluteJump (R120). -/

namespace Sys2Proof.Machine

/-- Settles O33: the instruction is one write of PC: no 8-bit register and no bus address depends on PC. -/
theorem jumpCompletes : Obligations.JumpCompletes :=
  fun s w => ⟨s.set16 .pc w, rfl, s.set16_pc_pc w, ⟨fun r _ => by cases r <;> rfl, rfl, rfl, rfl⟩,
    s.set16_memFrame .pc w⟩

/-- A step at the encoding of AbsoluteJump changes PC alone: the target replaces the PC that passed the bytes (R120). -/
theorem step_absoluteJump {s : State} {w : Word} (hc : s.cfg.WellFormed)
    (hbs : s.BytesAt s.pc (encode s.cfg (.absoluteJump w))) : step s = .next { s with pc := w } :=
  step_of_bytesAt_encode hc rfl hbs

/-- The encoding of AbsoluteJump has the low half of its target first (R76, R120). -/
theorem encode_absoluteJump_mkWord (c : Config) (hi lo : Byte) :
    encode c (.absoluteJump (mkWord hi lo)) = [c.opc.jp, lo, hi] :=
  congrArg (c.opc.jp :: ·) (wordBytes_mkWord hi lo)

/-- A step whose PC is out of range faults at its opcode fetch (60_exceptions R131). -/
theorem step_of_locate_pc_none {s : State} (h : s.locate s.pc = none) :
    step s = .fault (.addressOutOfRange s.pc .fetchOpcode) := by
  obtain ⟨hread, -⟩ := s.fails_of_not_inRange (addr := s.pc) (by simp [h])
  exact step_of_fetchInstr_error (fetchInstr_of_fetchByte_error (fetchByte_none .fetchOpcode s hread))

/-- Settles O34: the three bytes are the encoding of the jump, and the step after it fetches at the target. -/
theorem jumpStep : Obligations.JumpStep := by
  intro s lo hi hc hbs
  rw [← encode_absoluteJump_mkWord] at hbs
  exact ⟨step_absoluteJump hc hbs, mkWord_toNat hi lo, step_of_locate_pc_none (s := { s with pc := mkWord hi lo })⟩

/-- A state that a step leaves unchanged is left unchanged by every number of steps. -/
theorem run_of_step_self {s : State} (h : step s = .next s) (n : Nat) : core.run n s = .next s := by
  induction n with
  | zero => rfl
  | succ n ih => rw [run_succ_of_next n h, ih]

/-- Settles O35: the jump writes to PC the value it holds, so the state is a fixed point of the step. -/
theorem selfJumpIsFixedPoint : Obligations.SelfJumpIsFixedPoint :=
  fun _ n hc hjump => run_of_step_self (step_absoluteJump hc hjump) n

end Sys2Proof.Machine

/-! Proofs of family 60_exceptions: which accesses fault, at which address and with which kind (R130, R131), and that the
first access out of range is the one reported (R134). -/

namespace Sys2Proof.Machine

/-! ### The store (R131) -/

/-- Settles O23: the instruction is one store at BC, which fails where BC reaches no location. -/
theorem storeFaultsOutOfRange : Obligations.StoreFaultsOutOfRange :=
  fun s h => s.storeByte_none _ s.a h

theorem State.storeByte_fault_iff {s : State} {x addr : Word} {v : Byte} {kind : AccessKind} :
    s.storeByte x v = .fault (.addressOutOfRange addr kind) ↔ s.locate x = none ∧ addr = x ∧ kind = .store := by
  cases h : s.locate x with
  | none => simp [s.storeByte_none x v h, eq_comm]
  | some l => simp [s.storeByte_some x v l h]

/-- The store of `execute(g)` is out of range, at the bus address `x`: at BC, or at HL for the optional form under
`memoryWrite` (R100, R116). -/
def State.StoreFault (s : State) (g : Tag) (x : Word) : Prop :=
  (g = .storeAIndirectBC ∧ s.locate (s.get16 .bc) = none ∧ x = s.get16 .bc) ∨
  (g = .loadImmediate8HLind ∧ s.cfg.hlIndMode = .memoryWrite ∧ s.locate (s.get16 .hl) = none ∧ x = s.get16 .hl)

/-- An instruction faults exactly where its store is out of range. -/
theorem exec_fault_iff {i : Instr} {s : State} {addr : Word} {kind : AccessKind} :
    exec i s = .fault (.addressOutOfRange addr kind) ↔ s.StoreFault i.tag addr ∧ kind = .store := by
  cases i with
  | storeAIndirectBC =>
    have hexec : exec .storeAIndirectBC s = s.storeByte (s.get16 .bc) s.a := rfl
    rw [hexec, State.storeByte_fault_iff]
    simp [State.StoreFault, Instr.tag, and_assoc]
  | loadImmediate8HLind v =>
    cases hm : s.cfg.hlIndMode with
    | absent => simp [exec_loadImmediate8HLind_of_absent s v hm, State.StoreFault, Instr.tag, hm]
    | overwritePair => simp [exec_loadImmediate8HLind_of_overwritePair s v hm, State.StoreFault, Instr.tag, hm]
    | memoryWrite =>
      rw [exec_loadImmediate8HLind_of_memoryWrite s v hm, State.storeByte_fault_iff]
      simp [State.StoreFault, Instr.tag, hm, and_assoc]
  | _ => exact ⟨nofun, by simp [State.StoreFault, Instr.tag]⟩

/-! ### The fetches (R131) -/

theorem fetchByte_error_iff {s : State} {k kind : AccessKind} {addr : Word} :
    fetchByte k s = .error (.addressOutOfRange addr kind) ↔ s.read8 s.pc = none ∧ addr = s.pc ∧ kind = k := by
  cases h : s.read8 s.pc with
  | none => simp [fetchByte_none k s h, eq_comm]
  | some v => simp [fetchByte_some k s v h]

/-- Of `n` operand bytes at PC, low byte first, the one at the bus address `x` is the first out of range (R72, R134). -/
def State.FirstOperandFault (s : State) (n : Nat) (x : Word) : Prop :=
  (1 ≤ n ∧ s.read8 s.pc = none ∧ x = s.pc) ∨
  (n = 2 ∧ s.read8 s.pc ≠ none ∧ s.read8 (s.pc + 1) = none ∧ x = s.pc + 1)

theorem fetchWord_error_iff {s : State} {addr : Word} {kind : AccessKind} :
    fetchWord s = .error (.addressOutOfRange addr kind) ↔ s.FirstOperandFault 2 addr ∧ kind = .fetchOperand := by
  cases h0 : s.read8 s.pc with
  | none => simp [fetchWord_none_low s h0, State.FirstOperandFault, h0, eq_comm]
  | some lo =>
    cases h1 : s.read8 (s.pc + 1#16) with
    | none => simp [fetchWord_none_high s lo h0 h1, State.FirstOperandFault, h0, h1, eq_comm]
    | some hi => simp [fetchWord_some s lo hi h0 h1, State.FirstOperandFault, h0, h1]

/-- An operand fetch fails exactly at the first operand byte out of range. -/
theorem fetchOperands_error_iff {f : Form} {s : State} {addr : Word} {kind : AccessKind} :
    fetchOperands f s = .error (.addressOutOfRange addr kind) ↔
      s.FirstOperandFault f.operandBytes addr ∧ kind = .fetchOperand := by
  cases f with
  | op i => simp [fetchOperands, State.FirstOperandFault, Form.operandBytes]
  | opD8 k =>
    have hbyte : fetchOperands (.opD8 k) s = .error (.addressOutOfRange addr kind) ↔
        fetchByte .fetchOperand s = .error (.addressOutOfRange addr kind) := by
      simp only [fetchOperands]
      cases fetchByte .fetchOperand s <;> simp
    rw [hbyte, fetchByte_error_iff]
    simp [State.FirstOperandFault, Form.operandBytes, and_assoc]
  | opD16 k =>
    have hword : fetchOperands (.opD16 k) s = .error (.addressOutOfRange addr kind) ↔
        fetchWord s = .error (.addressOutOfRange addr kind) := by
      simp only [fetchOperands]
      cases fetchWord s <;> simp
    rw [hword, fetchWord_error_iff]
    rfl

/-! ### The order (R134) -/

/-- `execute(g)` faults at its operands or, where they are all in range, at its store. -/
theorem executeTag_fault_iff {g : Tag} {s : State} {addr : Word} {kind : AccessKind} :
    executeTag g s = .fault (.addressOutOfRange addr kind) ↔
      (s.FirstOperandFault g.form.operandBytes addr ∧ kind = .fetchOperand) ∨
      (((∀ x, ¬ s.FirstOperandFault g.form.operandBytes x) ∧ s.StoreFault g addr) ∧ kind = .store) := by
  have hfetch := fun x k => fetchOperands_error_iff (f := g.form) (s := s) (addr := x) (kind := k)
  cases hops : fetchOperands g.form s with
  | error e =>
    obtain ⟨x, rfl⟩ := fetchOperands_error hops
    have hx : s.FirstOperandFault g.form.operandBytes x := ((hfetch _ _).1 hops).1
    rw [executeTag_of_fetchOperands_error hops, ← hfetch addr kind, hops, Host.Outcome.fault.injEq,
      Except.error.injEq]
    exact ⟨.inl, fun h => h.resolve_right fun ⟨⟨hnone, _⟩, _⟩ => hnone x hx⟩
  | ok r =>
    obtain ⟨i, u⟩ := r
    have hnone : ∀ x, ¬ s.FirstOperandFault g.form.operandBytes x := fun x hx =>
      nomatch hops.symm.trans ((hfetch x _).2 ⟨hx, rfl⟩)
    have htag : i.tag = g := fetchOperands_tag (form_hasTag g) hops
    obtain rfl := fetchOperands_advance hops
    rw [executeTag_of_fetchOperands_ok hops, exec_fault_iff, htag]
    refine ⟨fun ⟨hs, hk⟩ => .inr ⟨⟨hnone, hs⟩, hk⟩, fun h => ?_⟩
    obtain ⟨⟨-, hs⟩, hk⟩ := h.resolve_left fun ⟨hx, _⟩ => hnone addr hx
    exact ⟨hs, hk⟩

/-- A step faults at its opcode fetch or, where that answers, in `execute` of the byte's tag. -/
theorem step_fault_iff {s : State} {addr : Word} {kind : AccessKind} :
    step s = .fault (.addressOutOfRange addr kind) ↔
      (s.read8 s.pc = none ∧ addr = s.pc ∧ kind = .fetchOpcode) ∨
      ∃ b, s.read8 s.pc = some b ∧
        executeTag (decodeTag s.cfg b) (s.advance 1) = .fault (.addressOutOfRange addr kind) := by
  cases hb : s.read8 s.pc with
  | none =>
    rw [step_of_fetchInstr_error (fetchInstr_of_fetchByte_error (fetchByte_none .fetchOpcode s hb))]
    simp [eq_comm]
  | some b =>
    rw [step_eq_executeTag (fetchByte_some .fetchOpcode s b hb)]
    simp

/-- The first operand fault past the opcode byte, by the length of the instruction (R74). -/
theorem advance_firstOperandFault_iff {s : State} {g : Tag} {x : Word} :
    (s.advance 1).FirstOperandFault g.form.operandBytes x ↔
      (2 ≤ g.length ∧ s.read8 (s.pc + 1) = none ∧ x = s.pc + 1) ∨
      (g.length = 3 ∧ s.read8 (s.pc + 1) ≠ none ∧ s.read8 (s.pc + 2) = none ∧ x = s.pc + 2) := by
  have hpc : s.pc + 1 + 1 = s.pc + 2 := BitVec.add_assoc s.pc 1 1
  have htwo : 1 ≤ g.form.operandBytes ↔ 2 ≤ g.length := by rw [Tag.length]; omega
  have hthree : g.form.operandBytes = 2 ↔ g.length = 3 := by rw [Tag.length]; omega
  rw [← htwo, ← hthree, ← hpc]
  rfl

/-- The store past the opcode byte is reached at once, or past the one operand byte of the optional form. -/
theorem advance_storeFault_iff {s : State} {g : Tag} {x : Word} :
    ((∀ y, ¬ (s.advance 1).FirstOperandFault g.form.operandBytes y) ∧ (s.advance 1).StoreFault g x) ↔
      (g = .storeAIndirectBC ∧ s.locate (s.get16 .bc) = none ∧ x = s.get16 .bc) ∨
      (g = .loadImmediate8HLind ∧ s.cfg.hlIndMode = .memoryWrite ∧ s.read8 (s.pc + 1) ≠ none ∧
        s.locate (s.get16 .hl) = none ∧ x = s.get16 .hl) := by
  simp only [advance_firstOperandFault_iff]
  constructor
  · rintro ⟨hnone, ⟨rfl, hbc⟩ | ⟨rfl, hm, hhl⟩⟩
    · exact .inl ⟨rfl, hbc⟩
    · exact .inr ⟨rfl, hm, fun hr => hnone _ (.inl ⟨Nat.le_refl 2, hr, rfl⟩), hhl⟩
  · rintro (⟨rfl, hbc⟩ | ⟨rfl, hm, hr, hhl⟩)
    · refine ⟨?_, .inl ⟨rfl, hbc⟩⟩
      rintro y (⟨hlen, -⟩ | ⟨hlen, -⟩)
      all_goals exact absurd hlen (by decide)
    · refine ⟨?_, .inr ⟨rfl, hm, hhl⟩⟩
      rintro y (⟨-, hn, -⟩ | ⟨hlen, -⟩)
      · exact hr hn
      · exact absurd hlen (by decide)

/-- Settles O8: the fetch of the opcode byte, of the operands in memory order, and the store fault in that order. -/
theorem faultCauses : Obligations.FaultCauses := by
  intro s addr kind
  rw [step_fault_iff]
  refine or_congr_right (exists_congr fun b => and_congr_right fun _ => ?_)
  rw [executeTag_fault_iff, advance_firstOperandFault_iff, advance_storeFault_iff]
  simp only [or_and_right, and_assoc, or_assoc]

end Sys2Proof.Machine

/-! Proofs of family other: words written out under the default opcode bytes (95_test_vectors E5 to E9). -/

namespace Sys2Proof

/-- A word that is the encoding of a well-formed instruction, with any bytes after it, decodes to that instruction. -/
theorem decode_of_eq_encode_append {c : Config} {bs rest : List Byte} {i : Instr} (hc : c.WellFormed)
    (hi : i.wellFormed c = true) (hbs : bs = encode c i ++ rest) : decode c bs = .ok (i, rest) :=
  hbs ▸ decodeOfEncode c i rest hc hi

/-- Settles O4: each word is the encoding of its instruction (for the miss, with one byte after it); the default
parameters are well formed with and without the optional form, and 0x1E is a byte of no tag. -/
theorem defaultWordsDecode : Obligations.DefaultWordsDecode := by
  have hdefault : Config.default.WellFormed := by decide
  have hunmapped : (0x1E : Byte) ∉ Config.default.mappedBytes := by decide
  have hoptional : { Config.default with hlIndMode := .memoryWrite }.WellFormed := hdefault
  refine ⟨?noOp, ?load16, ?store, ?decrement, ?load8, ?jump, ?miss, ?optional⟩
  case miss => exact decode_of_eq_encode_append hdefault (decide_eq_true hunmapped) rfl
  case optional => exact decode_of_eq_encode_append hoptional rfl rfl
  all_goals exact decode_of_eq_encode_append hdefault rfl rfl

end Sys2Proof
